-- ==== Sys2Proof/Word.lean ====
section
/-! DEFINITION. The block's word types (spec 00_scope.md R8). -/

namespace Sys2Proof

/-- A request or a response word (R47). -/
abbrev Word := BitVec 32

/-- A frame or payload byte, a module or function id, a result code, a STATUS value (R8). -/
abbrev Byte := BitVec 8

/-- A Command handle; 0x0000 is the null handle (R8, R28). -/
abbrev Handle := BitVec 16

/-- The declared data length LEN (R8). -/
abbrev Len := BitVec 16

/-- The byte counter CNT and the total frame size TOTAL (R8). -/
abbrev Count := BitVec 17

end Sys2Proof
end

