-- ==== Sys2Proof/Config.lean ====
section
/-! DEFINITION. What an implementation fixes (C, LOGID) and the free values: constants with no body, so that nothing in
Lean can evaluate one or prove a value of it. -/

namespace Sys2Proof

/-- The three request ports (R51): P the producer, Q the consumer, K control. -/
inductive Port where
  | producer
  | consumer
  | control
deriving DecidableEq, Repr, Inhabited

/-- The values every register and the Pool hold after a failed RESET: all unspecified (R31, column "after failed
RESET"). -/
structure OffRegs where
  head : Nat
  tail : Nat
  size : Nat
  status : Byte
  slot : Nat → Handle
  cnt : Count
  total : Count
  len : Len
  wmod : Byte
  wfun : Byte
  wh : Handle
  discard : Bool
  live : Nat → Bool
  recMod : Nat → Byte
  recFun : Nat → Byte
  recLen : Nat → Len
  recByte : Nat → Nat → Byte
deriving Inhabited

/-- C - 1. The capacity is OPEN, with C >= 1 (R6, decision D10). DESIGN CHOICE: log entry 1. -/
opaque Config.capacityPred : Nat

/-- The queue capacity C of R6: at least 1 by its form, and otherwise unknown. -/
def Config.capacity : Nat := Config.capacityPred + 1

/-- LOGID, the module value of the block's log events: OPEN (R9). Log entry 12. -/
opaque Config.logId : Byte

/-- Free value: the outcome of an allocation (R10, R78): `none` a failure, `some h` a success whose handle is searched
for from `h` on. Log entry 4. -/
opaque Config.allocChoice : Nat → Option Handle

/-- Free value: the outcome of the construction RESET performs (R10, R117). Log entry 4. -/
opaque Config.buildChoice : Nat → Bool

/-- Free value: which of the ports with a pending request is served (R42). Log entry 5. -/
opaque Config.serveChoice : Nat → Port

/-- Free value: byte `i` of a freshly allocated payload buffer (R10, R78; 93 I1). Log entry 6. -/
opaque Config.freshByte : Nat → Nat → Byte

/-- Free value: byte `i` of the record of a handle that is not live, or whose record has no such byte (93 I15, I16).
Log entries 7 and 8. -/
opaque Config.strayByte : Nat → Handle → Nat → Byte

/-- Free value: MOD and FUN of such a record (93 I15, I16). Log entries 7 and 8. -/
opaque Config.strayIds : Nat → Handle → Byte × Byte

/-- Free value: the payload a reader finds in the record of a handle that is not live (93 I15). Log entry 7. -/
opaque Config.strayPayload : Nat → Handle → List Byte

/-- Free value: what a slot index outside 0..C-1 would read as. Log entry 9. -/
opaque Config.straySlot : Nat → Nat → Handle

/-- Free values: all registers after a failed RESET (R31). Log entry 10. -/
opaque Config.offRegs : Nat → OffRegs

end Sys2Proof
end

