-- ==== Sys2Proof/Syntax.lean ====
section
/-! DEFINITION. The operations of the block: one constructor per row of spec/opcode_table.json (R53). -/

namespace Sys2Proof

/-- The eight operations, with their operands as R54 gives them. -/
inductive Instr where
  /-- NOP (R116). -/
  | nop
  /-- RESET (R117). -/
  | reset
  /-- RX_BYTE, the received byte (R65). -/
  | rxByte (b : Byte)
  /-- PUT, a Command handle (R87). -/
  | put (h : Handle)
  /-- GET (R88). -/
  | get
  /-- GET_STATUS (R89). -/
  | getStatus
  /-- ALLOC, the payload length (R80). -/
  | alloc (n : Len)
  /-- DEALLOC, a Command handle (R81). -/
  | dealloc (h : Handle)
deriving DecidableEq, Repr

end Sys2Proof
end

