-- ==== Sys2Proof/WellFormed.lean ====
section
/-! DEFINITION. When a request is well formed. An operand is exactly as wide as its field (R54), so every term of Instr
has a word; what can be ill formed is the port an operation is issued on (R51, R53). -/

namespace Sys2Proof

/-- The ports an operation may be issued on: the "ports" column of R53's table. -/
def Instr.ports : Instr → List Port
  | .nop => [.producer, .consumer, .control]
  | .reset => [.control]
  | .rxByte _ => [.producer]
  | .put _ => [.producer]
  | .get => [.consumer]
  | .getStatus => [.consumer]
  | .alloc _ => [.producer]
  | .dealloc _ => [.producer, .consumer]

/-- The request `i` on port `p` is well formed. -/
def Instr.wellFormedOn (p : Port) (i : Instr) : Bool :=
  i.ports.contains p

end Sys2Proof
end

