-- ==== Sys2Proof/Decode.lean ====
section
/-! DEFINITION. The decoder of request words, total on every word and rejecting by name, and the encoder (R52 to R54,
R58, R60). A request word is one parallel value and has no byte order (R34). -/

namespace Sys2Proof

/-- Why a request word is illegal whatever port it came on (R58). -/
inductive Illegal where
  /-- OP is in 0x8..0xF (93 I21). -/
  | reservedOp
  /-- RSV is not zero (93 I22). -/
  | reservedBits
  /-- An ARG bit that must be zero is set (93 I23). -/
  | argNotZero
deriving DecidableEq, Repr

/-- What the decoder answers: an operation, or the reason there is none. -/
inductive Decoded where
  | instr (i : Instr)
  | illegal (why : Illegal)
deriving DecidableEq, Repr

/-- OP, bits [31:28] (R52). -/
def opField (w : Word) : BitVec 4 := w.extractLsb' 28 4

/-- RSV, bits [27:16] (R52). -/
def rsvField (w : Word) : BitVec 12 := w.extractLsb' 16 12

/-- ARG, bits [15:0] (R52). -/
def argField (w : Word) : BitVec 16 := w.extractLsb' 0 16

/-- An operation without an operand: all of ARG must be zero (R54). -/
def decodeNoOperand (i : Instr) (arg : BitVec 16) : Decoded :=
  if arg = 0#16 then .instr i else .illegal .argNotZero

/-- RX_BYTE: ARG[15:8] must be zero, the byte is ARG[7:0] (R54). -/
def decodeRxByte (arg : BitVec 16) : Decoded :=
  if arg.extractLsb' 8 8 = 0#8 then .instr (.rxByte (arg.extractLsb' 0 8)) else .illegal .argNotZero

/-- The operation a request word names (R53, R54), or why it names none (R58). -/
def decode (w : Word) : Decoded :=
  if rsvField w = 0#12 then
    match (opField w).toNat with
    | 0x0 => decodeNoOperand .nop (argField w)
    | 0x1 => decodeNoOperand .reset (argField w)
    | 0x2 => decodeRxByte (argField w)
    | 0x3 => .instr (.put (argField w))
    | 0x4 => decodeNoOperand .get (argField w)
    | 0x5 => decodeNoOperand .getStatus (argField w)
    | 0x6 => .instr (.alloc (argField w))
    | 0x7 => .instr (.dealloc (argField w))
    | _ => .illegal .reservedOp
  else .illegal .reservedBits

/-- The operation number (R53). -/
def opNumber : Instr → BitVec 4
  | .nop => 0x0#4
  | .reset => 0x1#4
  | .rxByte _ => 0x2#4
  | .put _ => 0x3#4
  | .get => 0x4#4
  | .getStatus => 0x5#4
  | .alloc _ => 0x6#4
  | .dealloc _ => 0x7#4

/-- The operand field ARG of an operation (R54). -/
def argOf : Instr → BitVec 16
  | .nop => 0#16
  | .reset => 0#16
  | .rxByte b => b.setWidth 16
  | .put h => h
  | .get => 0#16
  | .getStatus => 0#16
  | .alloc n => n
  | .dealloc h => h

/-- The request word of an operation: OP, RSV = 0, ARG (R52). -/
def encode (i : Instr) : Word := opNumber i ++ 0x000#12 ++ argOf i

/-- The pseudo-instruction `P: FRAME m, f, [p0, ..., pL-1]` (R63): the L + 4 RX_BYTE requests of one wire frame, for
L up to 65535. -/
def frameRequests (m f : Byte) (payload : List Byte) : List Instr :=
  let len := BitVec.ofNat 16 payload.length
  [.rxByte m, .rxByte f, .rxByte (len.extractLsb' 0 8), .rxByte (len.extractLsb' 8 8)]
    ++ payload.map .rxByte

/-- The operation the decoder reads from a request whose bits are `w`, as spec/opcode_table.json numbers them; the one
request format is 32 bits long (R47, R61). -/
def decodeTableWord (nbits w : Nat) : Option Instr :=
  if w % 2 ^ nbits < 2 ^ 32 then
    match decode (BitVec.ofNat 32 (w % 2 ^ nbits)) with
    | .instr i => some i
    | .illegal _ => none
  else none

end Sys2Proof
end

