-- ==== Sys2Proof/Machine/State.lean ====
section
/-! DEFINITION. The state of the block as plain data (spec 10_state.md), its reset and power-on values, and the reasons
a step can stop. -/

namespace Sys2Proof.Machine

/-- MODE (R17). -/
inductive Mode where
  | off
  | run
deriving DecidableEq, Repr

/-- The result codes by name (R57); `Code.num` gives their numbers. UnknownCommand is the consumer's own warning and
never a response of the block (R98). -/
inductive Code where
  | ok
  | empty
  | partly
  | full
  | doubleFreeWarning
  | unknownCommand
  | allocationError
  | invalidArgument
  | queueFull
  | queueEmpty
  | queueInvalid
deriving DecidableEq, Repr

/-- The class of a result code (R57). -/
inductive Severity where
  | info
  | warning
  | error
deriving DecidableEq, Repr

/-- One event of the log history: the logging collaborator's tuple (R96). -/
structure Event where
  module : Byte
  status : Code
  message : Option String
  length : Option Nat
  payload : Option (List Byte)
deriving DecidableEq, Repr

/-- The record REC[h] of a live handle: MOD, FUN, DLEN and PAY (R28). -/
structure Record where
  modId : Byte
  funId : Byte
  dlen : Len
  pay : List Byte
deriving DecidableEq, Repr

/-- The Pool's record store: one entry per live handle, keyed by the handle. LIVE[h] is 1 exactly when h is listed
(R28); a released record's contents are no part of it (R79, 93 I15). Log entries 7 and 21. -/
abbrev Memory := List (Nat × Record)

/-- An entry is sound: its handle is in 0x0001..0xFFFF and its payload is exactly DLEN bytes (R28). -/
def Memory.entryOk (e : Nat × Record) : Bool :=
  decide (0 < e.1) && decide (e.1 < 65536) && decide (e.2.pay.length = e.2.dlen.toNat)

/-- Every key of the store is above `lo`, and the keys rise strictly. -/
def Memory.risesFrom : Nat → Memory → Bool
  | _, [] => true
  | lo, (k, _) :: rest => decide (lo < k) && Memory.risesFrom k rest

/-- The ONE canonical form of the record store: handles strictly rising from 1, every entry sound. -/
def Memory.wf (m : Memory) : Bool :=
  Memory.risesFrom 0 m && m.all Memory.entryOk

/-- One request port (R51): the requests issued on it, the outstanding one first (the next becomes outstanding when it
has its response), and the response word of the last transaction served on it. Log entries 3 and 13. -/
structure PortState where
  reqs : List Word
  rsp : Option Word
deriving DecidableEq, Repr

/-- The model's own record of the environment's choices (the draws of R10 and the order of R42). A choice is taken from
its list while the list holds one, and from the free values of Config, applied to `tick`, when it is empty. Log entries
4 and 5. -/
structure Env where
  allocs : List (Option Handle)
  builds : List Bool
  serves : List Port
  tick : Nat
deriving DecidableEq, Repr

/-- Why the machine stops. -/
inductive Fault where
  /-- A request is pending and MODE is OFF, and it is not the word RESET on port K: it has no step (R59, R118). Raised
  by every meaning through `transact`, and by `step` when no pending request has a step. SAFE: the spec calls the
  request stuck, and no claim about its completion can be proved. Log entry 11. -/
  | noStepWhileOff
deriving DecidableEq, Repr

/-- Why an instruction has no meaning. -/
inductive Refusal where
  /-- An operation without a meaning yet, by its mnemonic. Raised by no arm of this model. SAFE. -/
  | notModelled (mnemonic : String)
deriving DecidableEq, Repr

/-- Everything the spec gives the machine (10_state.md), the port a request arrived on (R109), the ports (R51, R56), and
the environment's choices. -/
structure State where
  /-- CAP, the configuration constant C (R18). -/
  cap : Nat
  /-- MODE (R17). -/
  mode : Mode
  /-- HEAD, an IW-bit register (R19). Log entry 16. -/
  head : Nat
  /-- TAIL, an IW-bit register (R20). Log entry 16. -/
  tail : Nat
  /-- SIZE, an SW-bit register (R21). Log entry 16. -/
  size : Nat
  /-- STATUS (R22). -/
  status : Byte
  /-- SLOT[0..C-1] (R23). -/
  slots : List Handle
  /-- CNT (R24). -/
  cnt : Count
  /-- TOTAL (R25). -/
  total : Count
  /-- LEN (R26). -/
  len : Len
  /-- WMOD (R27). -/
  wmod : Byte
  /-- WFUN (R27). -/
  wfun : Byte
  /-- WH (R27). -/
  wh : Handle
  /-- DISCARD (R27). -/
  discard : Bool
  /-- LIVE and REC (R28). -/
  mem : Memory
  /-- The log history, oldest event first (R28, R96). Log entry 17. -/
  log : List Event
  /-- The port the request in service arrived on (R109). -/
  active : Port
  /-- Port P (R51). -/
  portP : PortState
  /-- Port Q (R51). -/
  portQ : PortState
  /-- Port K (R51). -/
  portK : PortState
  /-- The environment's choices: the model's own field (R10, R42). -/
  env : Env
deriving DecidableEq, Repr

/-- The state right after a successful RESET that followed power-on: R31's column "after successful RESET" and R120, the
log still empty, port K holding RESET's response 0x00000000, no request pending. Log entries 1 to 5, 13 and 14. -/
def State.reset : State where
  cap := Config.capacity
  mode := .run
  head := 0
  tail := 0
  size := 0
  status := 0x00#8
  slots := List.replicate Config.capacity 0x0000#16
  cnt := 0#17
  total := 4#17
  len := 0#16
  wmod := 0x00#8
  wfun := 0x00#8
  wh := 0x0000#16
  discard := false
  mem := []
  log := []
  active := .control
  portP := { reqs := [], rsp := none }
  portQ := { reqs := [], rsp := none }
  portK := { reqs := [], rsp := some 0x00000000#32 }
  env := { allocs := [], builds := [], serves := [], tick := 0 }

/-- The state at power-on: MODE is OFF, the log is empty, no request is pending, and every other register holds
whatever `g` holds (R31, column "power-on"). -/
def State.powerOn (g : State) : State :=
  { g with
    cap := Config.capacity
    mode := .off
    log := []
    portP := { reqs := [], rsp := none }
    portQ := { reqs := [], rsp := none }
    portK := { reqs := [], rsp := none } }

end Sys2Proof.Machine
end

