-- ==== Sys2Proof/Machine/Flags.lean ====
section
/-! DEFINITION. The STATUS register's codes and transitions (R22, R86, R88 to R90), and the arithmetic of the queue's
counters (R7, R11, R19 to R21). -/

namespace Sys2Proof.Machine

/-- EMPTY (R22). -/
abbrev statusEmpty : Byte := 0x00#8

/-- PARTIAL (R22). -/
abbrev statusPartial : Byte := 0x01#8

/-- FULL (R22). -/
abbrev statusFull : Byte := 0x02#8

/-- INVALID (R22). -/
abbrev statusInvalid : Byte := 0x03#8

/-- The number of bits in the binary representation of `n`; `bitLength 0 = 0` (R7). -/
def bitLength (n : Nat) : Nat :=
  if n = 0 then 0 else Nat.log2 n + 1

/-- IW, the width of HEAD and TAIL (R7). -/
def indexWidth (cap : Nat) : Nat := max 1 (bitLength (cap - 1))

/-- SW, the width of SIZE (R7). -/
def sizeWidth (cap : Nat) : Nat := bitLength cap

/-- `(i + 1) mod C` (R19, R20). -/
def nextIndex (cap i : Nat) : Nat := (i + 1) % cap

/-- `SIZE + 1` on SW bits (R21, R11). -/
def sizeUp (cap size : Nat) : Nat := (size + 1) % 2 ^ sizeWidth cap

/-- `SIZE - 1` on SW bits: 0 wraps to 2^SW - 1 (R21, R91). -/
def sizeDown (cap size : Nat) : Nat := (size + (2 ^ sizeWidth cap - 1)) % 2 ^ sizeWidth cap

/-- Why an Enqueue fails on this STATUS, if it does: FULL, or INVALID and every unrecognized value (R86). -/
def putFailure (status : Byte) : Option Code :=
  if status = statusFull then some .queueFull
  else if status = statusEmpty ∨ status = statusPartial then none
  else some .queueInvalid

/-- STATUS after a successful Enqueue, from the new SIZE, the new HEAD and TAIL (R86). -/
def statusAfterPut (cap size head tail : Nat) : Byte :=
  if size = cap ∨ head = tail then statusFull else statusPartial

/-- STATUS after a successful GET, from the new SIZE (R88). -/
def statusAfterGet (size : Nat) : Byte :=
  if size = 0 then statusEmpty else statusPartial

/-- The code GET_STATUS answers (R89). -/
def statusCode (status : Byte) : Code :=
  if status = statusEmpty then .empty
  else if status = statusPartial then .partly
  else if status = statusFull then .full
  else .queueInvalid

end Sys2Proof.Machine
end

