-- ==== Sys2Proof/Machine/Operands.lean ====
section
/-! DEFINITION. Operand forms: which operations a port accepts (R51), the result codes' numbers (R57), the response word
(R56), and LEN, the one operand the block builds from bytes (R32, R55). -/

namespace Sys2Proof.Machine

/-- The operations port `p` accepts (R51, R109). -/
def accepts (p : Port) (i : Instr) : Bool :=
  match p, i with
  | .producer, .nop => true
  | .producer, .rxByte _ => true
  | .producer, .put _ => true
  | .producer, .alloc _ => true
  | .producer, .dealloc _ => true
  | .consumer, .nop => true
  | .consumer, .get => true
  | .consumer, .getStatus => true
  | .consumer, .dealloc _ => true
  | .control, .nop => true
  | .control, .reset => true
  | _, _ => false

/-- The number of a result code (R57). -/
def Code.num : Code → Byte
  | .ok => 0x00#8
  | .empty => 0x01#8
  | .partly => 0x02#8
  | .full => 0x03#8
  | .doubleFreeWarning => 0x40#8
  | .unknownCommand => 0x41#8
  | .allocationError => 0x80#8
  | .invalidArgument => 0x81#8
  | .queueFull => 0x82#8
  | .queueEmpty => 0x83#8
  | .queueInvalid => 0x84#8

/-- The class of a result code (R57). -/
def Code.severity : Code → Severity
  | .ok | .empty | .partly | .full => .info
  | .doubleFreeWarning | .unknownCommand => .warning
  | .allocationError | .invalidArgument | .queueFull | .queueEmpty | .queueInvalid => .error

/-- The class RESULT[7:6] names: 00, 01 and 10; 11 names none (R57). -/
def severityOfBits (result : Byte) : Option Severity :=
  match (result.extractLsb' 6 2).toNat with
  | 0 => some .info
  | 1 => some .warning
  | 2 => some .error
  | _ => none

/-- The response word: RESULT [31:24], STAT [23:16], DATA [15:0] (R56). -/
def responseWord (result : Code) (stat : Byte) (data : Handle) : Word :=
  result.num ++ stat ++ data

/-- RESULT of a response word (R56). -/
def resultField (w : Word) : Byte := w.extractLsb' 24 8

/-- STAT of a response word (R56). -/
def statusField (w : Word) : Byte := w.extractLsb' 16 8

/-- DATA of a response word (R56). -/
def dataField (w : Word) : Handle := w.extractLsb' 0 16

/-- Byte 2 added into the length accumulator unshifted, on 16 bits (R67). -/
def addLengthLow (len : Len) (b : Byte) : Len := len + b.setWidth 16

/-- Byte 3 added into the length accumulator shifted left by 8, on 16 bits (R68). -/
def addLengthHigh (len : Len) (b : Byte) : Len := len + (b.setWidth 16 <<< 8)

/-- `TOTAL + zext_17(LEN)`, on 17 bits (R65, R68). -/
def extendTotal (total : Count) (len : Len) : Count := total + len.setWidth 17

/-- The payload offset `CNT - 4` of the byte about to be received (R33, R69). -/
def payloadOffset (cnt : Count) : Nat := (cnt - 4#17).toNat

end Sys2Proof.Machine
end

