-- ==== Sys2Proof/Machine/Ops.lean ====
section
/-! DEFINITION. The shared operations: ports and responses (R51, R56), the Pool's record store (R28, R78, R79), the slot
ring and Enqueue (R23, R86), the log (R96), DecoderReset (R73), a request's checks (R105), and the arbitration and
fetching of requests (R41, R42). The block has no traps (R107): `raise` is its one way to report an error. -/

namespace Sys2Proof.Machine

/-! ## Ports and responses -/

/-- The port `p` of the state. -/
def State.port (s : State) : Port → PortState
  | .producer => s.portP
  | .consumer => s.portQ
  | .control => s.portK

/-- The state with port `p` replaced. -/
def State.setPort (s : State) (p : Port) (x : PortState) : State :=
  match p with
  | .producer => { s with portP := x }
  | .consumer => { s with portQ := x }
  | .control => { s with portK := x }

/-- The environment issues one more request on port `p` (R51, R100); it is served after the port's earlier ones. -/
def issue (p : Port) (w : Word) (s : State) : State :=
  s.setPort p { s.port p with reqs := (s.port p).reqs ++ [w] }

/-- STAT of the response: STATUS after the transaction, and 0x00 after a failed RESET, the one transaction that ends
with MODE = OFF (R56). -/
def statOf (s : State) : Byte :=
  match s.mode with
  | .off => 0x00#8
  | .run => s.status

/-- `respond(result, data)`: the response word on the port in service (R12, R56). -/
def respond (result : Code) (data : Handle) (s : State) : State :=
  s.setPort s.active { s.port s.active with rsp := some (responseWord result (statOf s) data) }

/-- `raise <Code>()`: the transaction ends with the code and data 0x0000, and writes no state (R12, R107). -/
def raise (result : Code) (s : State) : State :=
  respond result 0x0000#16 s

/-- Log(code): the event (LOGID, code, none, none, none) is appended to the log history (R12, R96). -/
def logEvent (c : Code) (s : State) : State :=
  { s with
    log := s.log ++ [{ module := Config.logId, status := c, message := none, length := none, payload := none }] }

/-! ## The environment's choices -/

/-- The next free value's counter. -/
def bumpTick (s : State) : State :=
  { s with env := { s.env with tick := s.env.tick + 1 } }

/-- The draw of one allocation's outcome (R10, R78). -/
def drawAlloc (s : State) : Option Handle × State :=
  match s.env.allocs with
  | c :: rest => (c, { s with env := { s.env with allocs := rest } })
  | [] => (Config.allocChoice s.env.tick, bumpTick s)

/-- The draw of one construction's outcome (R10, R117). -/
def drawBuild (s : State) : Bool × State :=
  match s.env.builds with
  | c :: rest => (c, { s with env := { s.env with builds := rest } })
  | [] => (Config.buildChoice s.env.tick, bumpTick s)

/-- The draw of the port to serve (R42). -/
def drawServe (s : State) : Port × State :=
  match s.env.serves with
  | c :: rest => (c, { s with env := { s.env with serves := rest } })
  | [] => (Config.serveChoice s.env.tick, bumpTick s)

/-! ## The Pool's record store -/

/-- The record of handle `h`, if it is live (R28). -/
def Memory.find : Memory → Nat → Option Record
  | [], _ => none
  | (k, r) :: rest, h => if k = h then some r else Memory.find rest h

/-- LIVE[h] (R28). -/
def Memory.live (m : Memory) (h : Nat) : Bool := (Memory.find m h).isSome

/-- REC[h] becomes `r`, and LIVE[h] becomes 1; the handles keep rising. -/
def Memory.insert : Memory → Nat → Record → Memory
  | [], h, r => [(h, r)]
  | (k, x) :: rest, h, r =>
    if h < k then (h, r) :: (k, x) :: rest
    else if h = k then (h, r) :: rest
    else (k, x) :: Memory.insert rest h r

/-- LIVE[h] becomes 0 (R79). -/
def Memory.erase : Memory → Nat → Memory
  | [], _ => []
  | (k, x) :: rest, h => if k = h then Memory.erase rest h else (k, x) :: Memory.erase rest h

/-- Payload byte `i` of record `h`, if the handle is live and has such a byte: the model's read of one byte of memory. -/
def Memory.byte (m : Memory) (h : Handle) (i : Nat) : Option Byte :=
  (Memory.find m h.toNat).bind fun r => r.pay[i]?

/-- MemRead(h, i, 1) (R12). A byte that does not exist reads as a free value: log entry 7. -/
def memRead (h : Handle) (i : Nat) (s : State) : Byte :=
  (Memory.byte s.mem h i).getD (Config.strayByte s.env.tick h i)

/-- The record of a reused handle after a write outside its payload: its contents are any value, its length stays
(93 I16). Log entry 8. -/
def strayRecord (tick : Nat) (h : Handle) (r : Record) : Record :=
  { r with
    modId := (Config.strayIds tick h).1
    funId := (Config.strayIds tick h).2
    pay := (List.range r.pay.length).map fun i => Config.strayByte tick h i }

/-- MemWrite(h, i, 1, b) (R12). A record that is not live holds nothing to write (log entry 7); a write outside a live
record's payload leaves its contents free (log entry 8). -/
def memWrite (h : Handle) (i : Nat) (b : Byte) (s : State) : State :=
  match Memory.find s.mem h.toNat with
  | none => s
  | some r =>
    if i < r.pay.length then
      { s with mem := Memory.insert s.mem h.toNat { r with pay := r.pay.set i b } }
    else
      bumpTick { s with mem := Memory.insert s.mem h.toNat (strayRecord s.env.tick h r) }

/-- The owner of a live handle writes its record: MOD, FUN and the payload bytes, whose number stays (R40, R100). It is
the environment's write between two steps, and no operation of the block. Log entry 22. -/
def ownerWrites (h : Handle) (m f : Byte) (pay : List Byte) (s : State) : State :=
  match Memory.find s.mem h.toNat with
  | none => s
  | some r =>
    if pay.length = r.pay.length then
      { s with mem := Memory.insert s.mem h.toNat { r with modId := m, funId := f, pay := pay } }
    else s

/-- The first handle from `h` on, counting up and past 0xFFFF to 0x0001, that is neither null nor live; none within
`fuel` handles. Every free handle is the answer for some `h`. -/
def freeFrom (m : Memory) : Nat → Handle → Option Handle
  | 0, _ => none
  | fuel + 1, h =>
    if h = 0x0000#16 ∨ Memory.live m h.toNat = true then freeFrom m fuel (h + 1#16) else some h

/-- The handle an allocation takes, from the handle the environment chose: none when all 65535 are live (R78). -/
def pickHandle (m : Memory) (want : Handle) : Option Handle := freeFrom m 65536 want

/-- The record of a fresh allocation: MOD = FUN = 0x00, DLEN = n, and n payload bytes of any value (R78). -/
def freshRecord (tick : Nat) (n : Len) : Record where
  modId := 0x00#8
  funId := 0x00#8
  dlen := n
  pay := (List.range n.toNat).map (Config.freshByte tick)

/-- PoolAlloc(n) (R78): none is FAIL. -/
def poolAlloc (n : Len) (s : State) : Option Handle × State :=
  match drawAlloc s with
  | (none, s1) => (none, s1)
  | (some want, s1) =>
    match pickHandle s1.mem want with
    | none => (none, s1)
    | some h => (some h, bumpTick { s1 with mem := Memory.insert s1.mem h.toNat (freshRecord s1.env.tick n) })

/-- PoolFree(h) (R79). -/
def poolFree (h : Handle) (s : State) : Code × State :=
  if h = 0x0000#16 ∨ Memory.live s.mem h.toNat = false then (.doubleFreeWarning, s)
  else (.ok, { s with mem := Memory.erase s.mem h.toNat })

/-! ## The slot ring -/

/-- SLOT[i] (R12, R23). An index outside 0..C-1 names no slot and reads as a free value: log entry 9. -/
def readSlot (i : Nat) (s : State) : Handle :=
  (s.slots[i]?).getD (Config.straySlot s.env.tick i)

/-- SLOT[i] <- h (R12, R23). An index outside 0..C-1 names no slot to write: log entry 9. -/
def writeSlot (i : Nat) (h : Handle) (s : State) : State :=
  { s with slots := s.slots.set i h }

/-- The state after a handle is stored at HEAD: HEAD and SIZE advance, STATUS follows from them (R86). -/
def enqueued (h : Handle) (s : State) : State :=
  let s1 := writeSlot s.head h s
  let head := nextIndex s.cap s.head
  let size := sizeUp s.cap s.size
  { s1 with head := head, size := size, status := statusAfterPut s.cap size head s.tail }

/-- Enqueue(h), the body of PUT (R86). -/
def enqueue (h : Handle) (s : State) : Code × State :=
  match putFailure s.status with
  | some c => (c, s)
  | none => (.ok, enqueued h s)

/-- The state after the handle at TAIL is taken: the slot is nulled, TAIL and SIZE advance, STATUS follows (R88). -/
def dequeued (s : State) : State :=
  let s1 := writeSlot s.tail 0x0000#16 s
  let size := sizeDown s.cap s.size
  { s1 with tail := nextIndex s.cap s.tail, size := size, status := statusAfterGet size }

/-! ## DecoderReset, construction, and its failure -/

/-- DecoderReset() (R73). -/
def decoderReset (s : State) : State :=
  { s with
    cnt := 0#17
    total := 4#17
    len := 0#16
    wmod := 0x00#8
    wfun := 0x00#8
    wh := 0x0000#16
    discard := false }

/-- The state a successful construction leaves (R117, R120): queue empty, decoder reset, no handle live, MODE = RUN. -/
def constructed (s : State) : State :=
  { decoderReset s with
    head := 0
    tail := 0
    size := 0
    status := statusEmpty
    slots := List.replicate s.cap 0x0000#16
    mem := []
    mode := .run }

/-- The record store a failed construction leaves: LIVE and REC are any value (R31). -/
def unspecifiedMemory (r : OffRegs) : Memory :=
  ((List.range' 1 65535).filter r.live).map fun h =>
    (h, { modId := r.recMod h, funId := r.recFun h, dlen := r.recLen h,
          pay := (List.range (r.recLen h).toNat).map (r.recByte h) })

/-- The state a failed construction leaves: MODE = OFF (R117), every register unspecified, the log unchanged (R31). -/
def halted (s : State) : State :=
  let r := Config.offRegs s.env.tick
  bumpTick { s with
    mode := .off
    head := r.head % 2 ^ indexWidth s.cap
    tail := r.tail % 2 ^ indexWidth s.cap
    size := r.size % 2 ^ sizeWidth s.cap
    status := r.status
    slots := (List.range s.cap).map r.slot
    cnt := r.cnt
    total := r.total
    len := r.len
    wmod := r.wmod
    wfun := r.wfun
    wh := r.wh
    discard := r.discard
    mem := unspecifiedMemory r }

/-! ## A transaction's checks, and which request is served -/

/-- The checks before an operation's own rule, in R105's order: with MODE = OFF only RESET on port K has a step (R59,
R118); then the port must accept the operation (R58). -/
def transact (i : Instr) (s : State) (body : State → State) : Host.Outcome State Fault Refusal :=
  match s.mode with
  | .off => if i = .reset ∧ s.active = .control then .next (body s) else .fault .noStepWhileOff
  | .run => if accepts s.active i then .next (body s) else .next (raise .invalidArgument s)

/-- A request on port `p` is pending. -/
def pending (s : State) (p : Port) : Bool := !(s.port p).reqs.isEmpty

/-- The outstanding request of port `p` has a step: any request in RUN; in OFF exactly the word 0x10000000 on port K
(R17, R59). -/
def hasStep (s : State) (p : Port) : Bool :=
  match s.mode with
  | .run => pending s p
  | .off => decide (p = .control) && decide ((s.port p).reqs.head? = some 0x10000000#32)

/-- The ports whose outstanding request has a step. -/
def servable (s : State) : List Port := [Port.producer, Port.consumer, Port.control].filter (hasStep s)

/-- One of the candidates: the drawn port where it is one, else the first (R42: every order is admitted). -/
def chooseServe (first : Port) (rest : List Port) (s : State) : Port × State :=
  match drawServe s with
  | (c, s1) => if c ∈ first :: rest then (c, s1) else (first, s1)

/-- The outstanding request of port `p`, and the state in which it is in service. -/
def fetch (p : Port) (s : State) : Option (Word × State) :=
  match (s.port p).reqs with
  | [] => none
  | w :: rest => some (w, { s.setPort p { s.port p with reqs := rest } with active := p })

/-- The port a request word is placed on when it is the next to run: the first port that accepts its operation, and
port P for a word that names none. -/
def portFor (w : Word) : Port :=
  match decode w with
  | .instr i => i.ports.headD .producer
  | .illegal _ => .producer

/-- The state in which `w` is the only pending request: what a fetch of it needs, and no more. -/
def withOnlyRequest (w : Word) (s : State) : State :=
  let only (p : Port) : List Word := if p = portFor w then [w] else []
  { s with
    portP := { s.portP with reqs := only .producer }
    portQ := { s.portQ with reqs := only .consumer }
    portK := { s.portK with reqs := only .control } }

end Sys2Proof.Machine
end

