-- ==== Sys2Proof/Machine/Control.lean ====
section
/-! DEFINITION. The control operations NOP and RESET (70_reset_and_hazards.md). -/

namespace Sys2Proof.Machine

/-- RESET's own rule, after the checks (R117). -/
def resetBody (s : State) : State :=
  match drawBuild s with
  | (true, s1) => respond .ok 0x0000#16 (constructed s1)
  | (false, s1) => respond .allocationError 0x0000#16 (halted s1)

/-- NOP (R116). -/
def execNop (s : State) : Host.Outcome State Fault Refusal :=
  transact .nop s (respond .ok 0x0000#16)

/-- RESET (R117). -/
def execReset (s : State) : Host.Outcome State Fault Refusal :=
  transact .reset s resetBody

end Sys2Proof.Machine
end

