-- ==== Sys2Proof/Machine/Decoder.lean ====
section
/-! DEFINITION. The Frame Decoder's operation RX_BYTE, with Finalize (40_frame_decoder.md). -/

namespace Sys2Proof.Machine

/-- `if WH != 0x0000: PoolFree(WH)` (R71). -/
def releaseWorking (s : State) : State :=
  if s.wh = 0x0000#16 then s else (poolFree s.wh s).2

/-- MOD, FUN and the LEN payload bytes, copied from record WH, are written to the new Command `f`, whose DLEN is LEN
(R71). Log entry 20. -/
def fillCommand (f : Handle) (s : State) : State :=
  bumpTick { s with
    mem := Memory.insert s.mem f.toNat
      { modId := s.wmod, funId := s.wfun, dlen := s.len,
        pay := (List.range s.len.toNat).map fun i => memRead s.wh i s } }

/-- The last part of Finalize: PUT of the new Command, which is released and the loss logged where PUT fails (R71). -/
def offerCommand (f : Handle) (s : State) : Code × Handle × State :=
  match enqueue f s with
  | (.ok, s1) => (.ok, f, s1)
  | (r, s1) => (r, 0x0000#16, logEvent r (poolFree f s1).2)

/-- Finalize() (R71). -/
def finalize (s : State) : Code × Handle × State :=
  if s.discard then (.ok, 0x0000#16, decoderReset s)
  else
    match poolAlloc s.len s with
    | (none, s1) => (.allocationError, 0x0000#16, logEvent .allocationError (decoderReset (releaseWorking s1)))
    | (some f, s1) => offerCommand f (decoderReset (releaseWorking (fillCommand f s1)))

/-- The working payload buffer of a frame whose LEN is not 0: TOTAL becomes 4 + LEN and PoolAlloc(LEN) gives WH, or the
frame is abandoned (R65, R68, R74). -/
def startPayload (s : State) : Code × State :=
  match poolAlloc s.len { s with total := extendTotal s.total s.len } with
  | (none, s1) => (.allocationError, logEvent .allocationError { s1 with wh := 0x0000#16, discard := true })
  | (some h, s1) => (.ok, { s1 with wh := h })

/-- Byte 3, the length's high byte (R65, R68). -/
def takeLengthHigh (b : Byte) (s : State) : Code × State :=
  let s1 := { s with len := addLengthHigh s.len b }
  if s1.len = 0#16 then (.ok, s1) else startPayload s1

/-- A payload byte: byte CNT - 4 of record WH, or dropped in discard mode (R65, R69). -/
def takePayload (b : Byte) (s : State) : State :=
  if s.discard then s else memWrite s.wh (payloadOffset s.cnt) b s

/-- What a byte does by its offset CNT in the frame (R65 to R69). -/
def takeByte (b : Byte) (s : State) : Code × State :=
  if s.cnt = 0#17 then (.ok, { s with wmod := b })
  else if s.cnt = 1#17 then (.ok, { s with wfun := b })
  else if s.cnt = 2#17 then (.ok, { s with len := addLengthLow s.len b })
  else if s.cnt = 3#17 then takeLengthHigh b s
  else (.ok, takePayload b s)

/-- `CNT <- n + 1` (R65). -/
def countByte (s : State) : State := { s with cnt := s.cnt + 1#17 }

/-- RX_BYTE's own rule up to its response: result, data and state (R65, R70). -/
def receive (b : Byte) (s : State) : Code × Handle × State :=
  match takeByte b s with
  | (result, s1) =>
    if (countByte s1).cnt = s1.total then finalize (countByte s1) else (result, 0x0000#16, countByte s1)

/-- RX_BYTE's own rule, after the checks (R65). -/
def rxByteBody (b : Byte) (s : State) : State :=
  match receive b s with
  | (result, data, s1) => respond result data s1

/-- RX_BYTE (R65). -/
def execRxByte (b : Byte) (s : State) : Host.Outcome State Fault Refusal :=
  transact (.rxByte b) s (rxByteBody b)

end Sys2Proof.Machine
end

