-- ==== Sys2Proof/Machine/Pool.lean ====
section
/-! DEFINITION. The Command Pool's operations ALLOC and DEALLOC (41_command_pool.md). -/

namespace Sys2Proof.Machine

/-- ALLOC's own rule, after the checks (R80). -/
def allocBody (n : Len) (s : State) : State :=
  match poolAlloc n s with
  | (none, s1) => respond .allocationError 0x0000#16 s1
  | (some h, s1) => respond .ok h s1

/-- DEALLOC's own rule, after the checks (R81). -/
def deallocBody (h : Handle) (s : State) : State :=
  match poolFree h s with
  | (r, s1) => respond r 0x0000#16 s1

/-- ALLOC (R80). -/
def execAlloc (n : Len) (s : State) : Host.Outcome State Fault Refusal :=
  transact (.alloc n) s (allocBody n)

/-- DEALLOC (R81). -/
def execDealloc (h : Handle) (s : State) : Host.Outcome State Fault Refusal :=
  transact (.dealloc h) s (deallocBody h)

end Sys2Proof.Machine
end

