-- ==== Sys2Proof/Machine/Queue.lean ====
section
/-! DEFINITION. The Circular Queue's operations PUT, GET and GET_STATUS (42_queue.md). -/

namespace Sys2Proof.Machine

/-- PUT's own rule, after the checks (R87). -/
def putBody (h : Handle) (s : State) : State :=
  if h = 0x0000#16 then raise .invalidArgument s
  else
    match enqueue h s with
    | (r, s1) => respond r 0x0000#16 s1

/-- GET's own rule, after the checks (R88): the handle is the one at the old TAIL. -/
def getBody (s : State) : State :=
  if s.status = statusEmpty then raise .queueEmpty s
  else respond .ok (readSlot s.tail s) (dequeued s)

/-- GET_STATUS's own rule, after the checks (R89). -/
def getStatusBody (s : State) : State :=
  respond (statusCode s.status) 0x0000#16 s

/-- PUT (R87). -/
def execPut (h : Handle) (s : State) : Host.Outcome State Fault Refusal :=
  transact (.put h) s (putBody h)

/-- GET (R88). -/
def execGet (s : State) : Host.Outcome State Fault Refusal :=
  transact .get s getBody

/-- GET_STATUS (R89). -/
def execGetStatus (s : State) : Host.Outcome State Fault Refusal :=
  transact .getStatus s getStatusBody

end Sys2Proof.Machine
end

