-- ==== Sys2Proof/Machine/Dispatch.lean ====
section
/-! DEFINITION. One arm per operation. -/

namespace Sys2Proof.Machine

/-- The effect of one request, arrived on port `s.active`, as its operation's rule gives it. -/
def exec (i : Instr) (s : State) : Host.Outcome State Fault Refusal :=
  match i with
  | .nop => Sys2Proof.Machine.execNop s
  | .reset => Sys2Proof.Machine.execReset s
  | .rxByte b => Sys2Proof.Machine.execRxByte b s
  | .put h => Sys2Proof.Machine.execPut h s
  | .get => Sys2Proof.Machine.execGet s
  | .getStatus => Sys2Proof.Machine.execGetStatus s
  | .alloc n => Sys2Proof.Machine.execAlloc n s
  | .dealloc h => Sys2Proof.Machine.execDealloc h s

end Sys2Proof.Machine
end

