-- ==== Sys2Proof/Machine/Step.lean ====
section
/-! DEFINITION. One step: one pending request is chosen, fetched, decoded and executed (R41, R42, R105). -/

namespace Sys2Proof.Machine

/-- A fetched request word is decoded and executed; an illegal word gets InvalidArgument (R58). -/
def runWord (w : Word) (s : State) : Host.Outcome State Fault Refusal :=
  match decode w with
  | .instr i => exec i s
  | .illegal _ => .next (raise .invalidArgument s)

/-- The outstanding request of port `p` is served. -/
def serve (p : Port) (s : State) : Host.Outcome State Fault Refusal :=
  match fetch p s with
  | some (w, s1) => runWord w s1
  | none => .next s

/-- One step. With no pending request the block holds its state (R115, log entry 3); with pending requests none of which has a step
it is stuck (R118); with several, the order is the environment's (R42). -/
def step (s : State) : Host.Outcome State Fault Refusal :=
  match servable s with
  | [] => if pending s .producer || pending s .consumer || pending s .control then .fault .noStepWhileOff else .next s
  | [p] => serve p s
  | p :: q :: rest =>
    match chooseServe p (q :: rest) s with
    | (c, s1) => serve c s1

/-- The request whose bits are `w` placed where the very next step fetches it: it becomes the one pending request, on
a port that accepts its operation. Log entry 15. -/
def State.withFetchWord (s : State) (nbits w : Nat) : State :=
  withOnlyRequest (BitVec.ofNat 32 (w % 2 ^ nbits)) s

end Sys2Proof.Machine
end

