-- ==== Sys2Proof/Machine/Consumer.lean ====
section
/-! DEFINITION. The Consumer Loop as the environment agent behind port Q: what it does between two steps of the block
(43_consumer_and_collaborators.md R98, R99). No rule of the block reads it. Log entry 18. -/

namespace Sys2Proof.Machine

/-- Where the consumer is in its loop. -/
inductive ConsumerPhase where
  /-- It polls: its next request is GET. -/
  | polling
  /-- It holds the handle a GET returned: its next request is DEALLOC of it. -/
  | holding (h : Handle)
deriving DecidableEq, Repr

/-- The consumer's next request (R98). -/
def consumerRequest : ConsumerPhase → Instr
  | .polling => .get
  | .holding h => .dealloc h

/-- The consumer issues its next request on port Q. -/
def consumerIssues (c : ConsumerPhase) (s : State) : State :=
  issue .consumer (encode (consumerRequest c)) s

/-- Where the consumer is after the response to its request: a GET that succeeded hands it a handle, which it releases
exactly once whatever its handler did (R98). -/
def consumerSees (response : Word) : ConsumerPhase → ConsumerPhase
  | .polling =>
    if resultField response = Code.ok.num then .holding (dataField response) else .polling
  | .holding _ => .polling

/-- The (module id, function id) pair the consumer reads from the shared record of `h` (R40, R98); of a handle that is
not live it reads any value (93 I15). Log entry 7. -/
def consumerReads (h : Handle) (s : State) : Byte × Byte :=
  match Memory.find s.mem h.toNat with
  | some r => (r.modId, r.funId)
  | none => Config.strayIds s.env.tick h

/-- The payload REC[h].PAY the consumer reads for its handler (R40, R98); of a handle that is not live it reads any
value (93 I15). Log entry 7. -/
def consumerPayload (h : Handle) (s : State) : List Byte :=
  match Memory.find s.mem h.toNat with
  | some r => r.pay
  | none => Config.strayPayload s.env.tick h

/-- A handler: it is run on a Command's payload and succeeds or fails (R98, R99). Log entry 18. -/
abbrev Handler := List Byte → Bool

/-- The dispatch table: the handler registered for a (module id, function id) pair, if there is one (R99). -/
abbrev DispatchTable := Byte → Byte → Option Handler

/-- What the consumer does with a Command between its GET and its DEALLOC (R98). -/
inductive Handling where
  /-- The registered handler was run on the payload, and succeeded or failed. -/
  | ran (payload : List Byte) (succeeded : Bool)
  /-- No handler is registered: the consumer reports a warning. -/
  | reported (warning : Code)
deriving DecidableEq, Repr

/-- The Command `h` is dispatched: the handler registered for REC[h].MOD and REC[h].FUN is run on REC[h].PAY, and where
there is none UnknownCommand is reported (R98). -/
def consumerHandles (table : DispatchTable) (h : Handle) (s : State) : Handling :=
  match consumerReads h s with
  | (m, f) =>
    match table m f with
    | some handler => .ran (consumerPayload h s) (handler (consumerPayload h s))
    | none => .reported .unknownCommand

/-- What the consumer reports for the Command `h`, if it reports something (R98). -/
def consumerReports (table : DispatchTable) (h : Handle) (s : State) : Option Code :=
  match consumerHandles table h s with
  | .ran _ _ => none
  | .reported warning => some warning

/-- One turn of the loop, from the response to the consumer's request: the Command a GET handed it is dispatched before
it goes on, and where it goes on does not depend on what the handler did (R98). -/
def consumerTurn (table : DispatchTable) (response : Word) (c : ConsumerPhase) (s : State) :
    ConsumerPhase × Option Handling :=
  match consumerSees response c with
  | .polling => (.polling, none)
  | .holding h => (.holding h, some (consumerHandles table h s))

end Sys2Proof.Machine
end

