-- ==== Sys2Proof/Safety.lean ====
section
/-! DEFINITION. The terms claims use: the invariants of reachable states (R29, R30), the queue's contents, when an
operation is served, sequences of operations, and what a step leaves alone. -/

namespace Sys2Proof.Machine

/-! ## Invariants -/

/-- The queue invariant of R29: items 1 to 4, and of item 5 that exactly the occupied slots hold a non-null handle. -/
abbrev QueueInv (s : State) : Prop :=
  0 < s.cap ∧ s.slots.length = s.cap ∧ s.head < s.cap ∧ s.tail < s.cap ∧ s.size ≤ s.cap ∧
  s.size % s.cap = (s.head + s.cap - s.tail) % s.cap ∧
  s.status = (if s.size = 0 then 0x00#8 else if s.size = s.cap then 0x02#8 else 0x01#8) ∧
  ∀ k < s.cap, (s.slots[(s.tail + k) % s.cap]? ≠ some 0x0000#16 ↔ k < s.size)

/-- The framing part of the decoder invariant of R30, which no ownership violation breaks: items 1 and 2 and the TOTAL
part of item 3. -/
abbrev FramingInv (s : State) : Prop :=
  s.cnt.toNat < s.total.toNat ∧
  (s.cnt.toNat ≤ 3 → s.total = 4#17 ∧ s.wh = 0x0000#16 ∧ s.discard = false) ∧
  (s.cnt.toNat ≤ 2 → s.len = 0#16) ∧
  (4 ≤ s.cnt.toNat → 1 ≤ s.len.toNat ∧ s.total.toNat = 4 + s.len.toNat)

/-- WH is a live handle whose record is LEN bytes long, and DISCARD is 0 (R30 item 3). -/
abbrev HoldsBuffer (s : State) : Prop :=
  s.wh ≠ 0x0000#16 ∧ s.discard = false ∧ (Memory.find s.mem s.wh.toNat).map Record.dlen = some s.len

/-- The working buffer part of R30 item 3: past the header, the decoder holds its buffer, or it has none and
DISCARD is 1. -/
abbrev WorkingInv (s : State) : Prop :=
  4 ≤ s.cnt.toNat → HoldsBuffer s ∨ (s.wh = 0x0000#16 ∧ s.discard = true)

/-- What every step keeps, from any state: a capacity, the record store's canonical form, and in RUN the queue and the
framing invariants. -/
abbrev BlockInv (s : State) : Prop :=
  0 < s.cap ∧ Memory.wf s.mem = true ∧ (s.mode = .run → QueueInv s ∧ FramingInv s)

/-- The handles in the queue, oldest first: SLOT[(TAIL + k) mod C] for k in 0..SIZE-1 (R29 item 5). -/
def queueContents (s : State) : List Handle :=
  (List.range s.size).map fun k => readSlot ((s.tail + k) % s.cap) s

/-- The decoder is in its initial configuration (R73). -/
abbrev DecoderIdle (s : State) : Prop :=
  s.cnt = 0#17 ∧ s.total = 4#17 ∧ s.len = 0#16 ∧ s.wmod = 0x00#8 ∧ s.wfun = 0x00#8 ∧ s.wh = 0x0000#16 ∧
  s.discard = false

/-! ## Service -/

/-- The request `i` in service is legal: MODE is RUN and the port accepts the operation (R51, R58). -/
abbrev Serving (i : Instr) (s : State) : Prop :=
  s.mode = .run ∧ i.wellFormedOn s.active = true

/-- The event the block appends to the log history for the code `c` (R96). -/
def eventOf (c : Code) : Event where
  module := Config.logId
  status := c
  message := none
  length := none
  payload := none

/-- `w` is the response word on the port in service, and nothing else changes. -/
def answer (w : Word) (s : State) : State :=
  s.setPort s.active { s.port s.active with rsp := some w }

/-- The state in which the outstanding request of port `p` has been taken off and is in service. -/
def inService (p : Port) (rest : List Word) (s : State) : State :=
  { s.setPort p { s.port p with reqs := rest } with active := p }

/-- Port `p` is the only port with a pending request: `w`, then `rest` after it. -/
abbrev OnlyPending (p : Port) (w : Word) (rest : List Word) (s : State) : Prop :=
  (s.port p).reqs = w :: rest ∧ ∀ q, q ≠ p → (s.port q).reqs = []

/-- The operations of a list, one after another in the given order, all from the port in service. -/
def execAll : List Instr → State → Host.Outcome State Fault Refusal
  | [], s => .next s
  | i :: rest, s =>
    match exec i s with
    | .next t => execAll rest t
    | .fault r => .fault r
    | .refused r => .refused r

/-- The states the block can be in: State.reset, what a step leaves, and what the environment makes of a state between
two steps, which is to issue requests, to make its choices, and to write records (R29, R42, R100). -/
inductive Reached : State → Prop where
  | reset : Reached State.reset
  | step {s t : State} : Reached s → step s = .next t → Reached t
  | issued {s : State} (c : Port) (w : Word) : Reached s → Reached (issue c w s)
  | chosen {s : State} (e : Env) : Reached s → Reached { s with env := e }
  | written {s : State} (h : Handle) (m f : Byte) (pay : List Byte) : Reached s → Reached (ownerWrites h m f pay s)

/-- R58's condition on a request word, whatever port it came on: a reserved OP, a non-zero RSV, or a set must-be-zero
bit of ARG. -/
abbrev IllegalWord (w : Word) : Prop :=
  8 ≤ (w.extractLsb' 28 4).toNat ∨ w.extractLsb' 16 12 ≠ 0#12 ∨
  ((w.extractLsb' 28 4).toNat ∈ [0, 1, 4, 5] ∧ w.extractLsb' 0 16 ≠ 0#16) ∨
  ((w.extractLsb' 28 4).toNat = 2 ∧ w.extractLsb' 8 8 ≠ 0#8)

/-! ## What a step leaves alone -/

/-- The queue's registers and slots are unchanged. -/
abbrev SameQueue (s t : State) : Prop :=
  t.head = s.head ∧ t.tail = s.tail ∧ t.size = s.size ∧ t.status = s.status ∧ t.slots = s.slots

/-- The decoder's registers are unchanged. -/
abbrev SameDecoder (s t : State) : Prop :=
  t.cnt = s.cnt ∧ t.total = s.total ∧ t.len = s.len ∧ t.wmod = s.wmod ∧ t.wfun = s.wfun ∧ t.wh = s.wh ∧
  t.discard = s.discard

/-- The configuration, MODE, the port in service and every request are unchanged, and so are the other ports' responses:
of the ports, only the response of the one in service may change. -/
abbrev SameOutside (s t : State) : Prop :=
  t.cap = s.cap ∧ t.mode = s.mode ∧ t.active = s.active ∧ (∀ p, (t.port p).reqs = (s.port p).reqs) ∧
  ∀ p, p ≠ s.active → t.port p = s.port p

/-- Every byte of every record, and every record's own fields, are unchanged for the handles that satisfy `P`. -/
abbrev SameRecords (P : Nat → Prop) (s t : State) : Prop :=
  ∀ h, P h → Memory.find t.mem h = Memory.find s.mem h

/-- Every handle that was not live and is live now satisfies `P`. -/
abbrev MakesLiveOnly (P : Nat → Prop) (s t : State) : Prop :=
  ∀ h, Memory.live s.mem h = false → Memory.live t.mem h = true → P h

end Sys2Proof.Machine
end

