-- ==== Sys2Proof/Certificates/Slice0/Obligations.lean ====
section
/-! DEFINITION. The statements about the block, from the numbered rules of spec/. -/

open Sys2Proof Sys2Proof.Machine

/-! ## Encodings -/

/-- The word of every operation decodes to that operation, with every operand at every value (R52, R53, R54). -/
def Obligations.DecodeOfEncodeIsTheInstruction : Prop :=
  ∀ i : Instr, decode (encode i) = .instr i

/-- A word that decodes to an operation is that operation's word: no other word names it (R52 to R54, R58). -/
def Obligations.OnlyItsWordDecodesToAnInstruction : Prop :=
  ∀ (w : Word) (i : Instr), decode w = .instr i → encode i = w

/-- The decoder refuses exactly the words R58 calls illegal on every port. -/
def Obligations.DecoderRefusesExactlyTheIllegalWords : Prop :=
  ∀ w : Word, (∃ why, decode w = .illegal why) ↔ IllegalWord w

/-- A few words of the opcode table and of 95_test_vectors.md 2.1 are read as the spec says (R53, R58, R62). -/
def Obligations.SpecWordsDecode : Prop :=
  decode 0x00000000#32 = .instr .nop ∧ decode 0x10000000#32 = .instr .reset ∧
  decode 0x200000BB#32 = .instr (.rxByte 0xBB#8) ∧ decode 0x30001234#32 = .instr (.put 0x1234#16) ∧
  decode 0x40000000#32 = .instr .get ∧ decode 0x50000000#32 = .instr .getStatus ∧
  decode 0x6000FFFF#32 = .instr (.alloc 0xFFFF#16) ∧ decode 0x70000001#32 = .instr (.dealloc 0x0001#16) ∧
  decode 0x80000000#32 = .illegal .reservedOp ∧ decode 0x20010000#32 = .illegal .reservedBits ∧
  decode 0x20000107#32 = .illegal .argNotZero

/-- The response word's three fields, as numbers (R56). -/
def Obligations.ResponseWordHoldsItsFields : Prop :=
  ∀ (c : Code) (st : Byte) (d : Handle),
    (responseWord c st d).toNat = c.num.toNat * 2 ^ 24 + st.toNat * 2 ^ 16 + d.toNat ∧
    resultField (responseWord c st d) = c.num ∧ statusField (responseWord c st d) = st ∧
    dataField (responseWord c st d) = d

/-! ## Steps: which request runs, and when none does -/

/-- In RUN a step runs the one pending request's operation, which has been taken off its port (R41, R51). -/
def Obligations.StepRunsTheDecodedRequest : Prop :=
  ∀ (s : State) (c : Port) (w : Word) (rest : List Word) (i : Instr),
    s.mode = .run → OnlyPending c w rest s → decode w = .instr i → step s = exec i (inService c rest s)

/-- Of several pending requests in RUN any one can be the next, legal or not: the one on the port the environment
chooses. It is run as `runWord` runs a word: a word that decodes to an operation is that operation's exec, and any other
is answered InvalidArgument (R42, R58). -/
def Obligations.AnyPendingPortCanBeServedNext : Prop :=
  ∀ (s : State) (c d : Port) (w : Word) (rest : List Word) (more : List Port),
    s.mode = .run → (s.port c).reqs = w :: rest → d ≠ c → (s.port d).reqs ≠ [] → s.env.serves = c :: more →
    ∀ s1 : State, s1 = inService c rest { s with env := { s.env with serves := more } } →
      step s = runWord w s1 ∧
      (∀ i, decode w = .instr i → step s = exec i s1) ∧
      ∀ why, decode w = .illegal why → step s = .next (answer (0x81#8 ++ s.status ++ 0x0000#16) s1)

/-- R58: in RUN a request word that is illegal, or whose operation the port in service does not accept, gets
InvalidArgument, the current STATUS and DATA 0x0000, and changes nothing else. A step answers so for the request it takes
off its port, whether that is the one pending request or one of several; the step then also uses up the environment's
choice of the port, which is the model's own field (log entry 5). -/
def Obligations.IllegalRequestGetsInvalidArgument : Prop :=
  (∀ (s : State) (w : Word), s.mode = .run →
    (IllegalWord w ∨ ∃ i : Instr, w = encode i ∧ i.wellFormedOn s.active = false) →
    runWord w s = .next (answer (0x81#8 ++ s.status ++ 0x0000#16) s)) ∧
  (∀ (s : State) (c : Port) (w : Word) (rest : List Word),
    s.mode = .run → OnlyPending c w rest s →
    (IllegalWord w ∨ ∃ i : Instr, w = encode i ∧ i.wellFormedOn c = false) →
    step s = .next (answer (0x81#8 ++ s.status ++ 0x0000#16) (inService c rest s))) ∧
  ∀ (s t : State) (c : Port) (w : Word) (rest : List Word),
    s.mode = .run → (s.port c).reqs = w :: rest → (IllegalWord w ∨ ∃ i : Instr, w = encode i ∧ i.wellFormedOn c = false) →
    step s = .next t → (t.port c).reqs = rest →
    ∃ serves tick, t = answer (0x81#8 ++ s.status ++ 0x0000#16)
      (inService c rest { s with env := { s.env with serves := serves, tick := tick } })

/-- In RUN an operation on a port that does not accept it gets InvalidArgument and changes nothing (R58, R109). -/
def Obligations.WrongPortIsRejected : Prop :=
  ∀ (i : Instr) (s : State), s.mode = .run → i.wellFormedOn s.active = false →
    exec i s = .next (answer (0x81#8 ++ s.status ++ 0x0000#16) s)

/-- R118: with MODE = OFF the word RESET on port K has its step; every other operation has none, a block none of whose
pending requests is that word is stuck, and no step takes a request off port P or Q. -/
def Obligations.OffAcceptsOnlyReset : Prop :=
  ∀ s : State, s.mode = .off →
    (∀ i : Instr, ¬(i = .reset ∧ s.active = .control) → exec i s = .fault .noStepWhileOff) ∧
    ((∃ c, (s.port c).reqs ≠ []) → s.portK.reqs.head? ≠ some 0x10000000#32 → step s = .fault .noStepWhileOff) ∧
    (∀ rest, s.portK.reqs = 0x10000000#32 :: rest → step s = exec .reset (inService .control rest s)) ∧
    (∀ t, step s = .next t → t.portP.reqs = s.portP.reqs ∧ t.portQ.reqs = s.portQ.reqs)

/-- With no request pending a step holds the state, in either mode (R115); in RUN every step answers a next state: nothing
blocks, suspends or waits (R44, R103). -/
def Obligations.RunningBlockNeverStops : Prop :=
  (∀ s : State, (∀ c, (s.port c).reqs = []) → step s = .next s) ∧
  ∀ s : State, s.mode = .run → ∃ t, step s = .next t

/-- In RUN every operation on its own port completes with a response, which is InvalidArgument only for PUT of the null
handle (R44, R102). -/
def Obligations.EveryOperationCompletes : Prop :=
  ∀ (i : Instr) (s : State), Serving i s →
    ∃ t w, exec i s = .next t ∧ (t.port s.active).rsp = some w ∧
      (resultField w = 0x81#8 → i = .put 0x0000#16)

/-- A step in RUN is idle, or serves exactly one request: that port's outstanding request is taken off and it has a
response word; no other port changes (R41, R51). -/
def Obligations.StepServesOneRequest : Prop :=
  ∀ s t : State, s.mode = .run → step s = .next t →
    ((∀ c, (s.port c).reqs = []) ∧ t = s) ∨
    ∃ c w rest r, (s.port c).reqs = w :: rest ∧ t.port c = { reqs := rest, rsp := some r } ∧
      ∀ d, d ≠ c → t.port d = s.port d

/-! ## NOP and RESET -/

/-- NOP answers Ok on every port and changes nothing else (R116). -/
def Obligations.NopAnswersOk : Prop :=
  ∀ s : State, s.mode = .run → exec .nop s = .next (answer (0x00#8 ++ s.status ++ 0x0000#16) s)

/-- RESET whose construction succeeds leaves R31's column "after successful RESET", in either mode; the log and the
requests stay (R117, R120). -/
def Obligations.SuccessfulResetConstructsTheBlock : Prop :=
  ∀ (s : State) (rest : List Bool), s.active = .control → s.env.builds = true :: rest →
    exec .reset s = .next (answer 0x00000000#32 { s with
      mode := .run, head := 0, tail := 0, size := 0, status := 0x00#8, slots := List.replicate s.cap 0x0000#16,
      cnt := 0#17, total := 4#17, len := 0#16, wmod := 0x00#8, wfun := 0x00#8, wh := 0x0000#16, discard := false,
      mem := [], env := { s.env with builds := rest } })

/-- RESET whose construction fails leaves MODE = OFF and the log unchanged, and answers AllocationError with STAT 0x00;
the other registers hold values of their widths (R117, R31, R56). -/
def Obligations.FailedResetTurnsTheBlockOff : Prop :=
  ∀ (s : State) (rest : List Bool), s.active = .control → s.env.builds = false :: rest →
    ∃ t, exec .reset s = .next t ∧ t.mode = .off ∧ t.cap = s.cap ∧ t.log = s.log ∧ t.active = s.active ∧
      t.portK = { s.portK with rsp := some 0x80000000#32 } ∧ t.portP = s.portP ∧ t.portQ = s.portQ ∧
      t.head < 2 ^ indexWidth s.cap ∧ t.tail < 2 ^ indexWidth s.cap ∧ t.size < 2 ^ sizeWidth s.cap ∧
      t.slots.length = s.cap

/-- Whatever the construction draw, RESET on port K completes in either mode, as one of the two; either way it leaves
the capacity, the log, every request and the responses of ports P and Q unchanged (R31, R117). -/
def Obligations.ResetAlwaysAnswers : Prop :=
  ∀ s : State, s.active = .control →
    ∃ t, exec .reset s = .next t ∧ t.cap = s.cap ∧ t.log = s.log ∧ t.active = s.active ∧ t.portP = s.portP ∧
      t.portQ = s.portQ ∧ t.portK.reqs = s.portK.reqs ∧ t.env.allocs = s.env.allocs ∧ t.env.serves = s.env.serves ∧
      ((t.mode = .run ∧ t.size = 0 ∧ t.status = 0x00#8 ∧ DecoderIdle t ∧ t.mem = [] ∧
          t.portK.rsp = some 0x00000000#32 ∧ (0 < s.cap → QueueInv t)) ∨
       (t.mode = .off ∧ t.portK.rsp = some 0x80000000#32))

/-! ## The queue -/

/-- PUT of a non-null handle on STATUS EMPTY or PARTIAL stores it at HEAD, advances HEAD mod C and SIZE on SW bits, and
sets STATUS to FULL or PARTIAL (R86, R87). -/
def Obligations.PutStoresAtHead : Prop :=
  ∀ (s : State) (h : Handle), Serving (.put h) s → h ≠ 0x0000#16 → (s.status = 0x00#8 ∨ s.status = 0x01#8) →
    ∀ (head size : Nat) (st : Byte), head = (s.head + 1) % s.cap → size = (s.size + 1) % 2 ^ sizeWidth s.cap →
      st = (if size = s.cap ∨ head = s.tail then 0x02#8 else 0x01#8) →
      exec (.put h) s = .next (answer (0x00#8 ++ st ++ 0x0000#16)
        { s with slots := s.slots.set s.head h, head := head, size := size, status := st })

/-- PUT fails on the null handle, on FULL, and on INVALID or an unrecognized STATUS, in that order, and changes nothing
(R86, R87, R105). -/
def Obligations.FailedPutChangesNothing : Prop :=
  ∀ (s : State) (h : Handle), Serving (.put h) s →
    (h = 0x0000#16 → exec (.put h) s = .next (answer (0x81#8 ++ s.status ++ 0x0000#16) s)) ∧
    (h ≠ 0x0000#16 → s.status = 0x02#8 → exec (.put h) s = .next (answer (0x82#8 ++ s.status ++ 0x0000#16) s)) ∧
    (h ≠ 0x0000#16 → 3 ≤ s.status.toNat → exec (.put h) s = .next (answer (0x84#8 ++ s.status ++ 0x0000#16) s))

/-- GET on any STATUS but EMPTY answers the handle at the old TAIL, nulls its slot, advances TAIL mod C, takes 1 from
SIZE on SW bits, and sets STATUS to EMPTY or PARTIAL (R88, R91). -/
def Obligations.GetTakesTheHandleAtTail : Prop :=
  ∀ (s : State) (h : Handle), Serving .get s → s.status ≠ 0x00#8 → s.slots[s.tail]? = some h →
    ∀ (size : Nat) (st : Byte), size = (s.size + (2 ^ sizeWidth s.cap - 1)) % 2 ^ sizeWidth s.cap →
      st = (if size = 0 then 0x00#8 else 0x01#8) →
      exec .get s = .next (answer (0x00#8 ++ st ++ h)
        { s with slots := s.slots.set s.tail 0x0000#16, tail := (s.tail + 1) % s.cap, size := size, status := st })

/-- GET on EMPTY fails with QueueEmpty and changes nothing (R88). -/
def Obligations.GetOnEmptyChangesNothing : Prop :=
  ∀ s : State, Serving .get s → s.status = 0x00#8 →
    exec .get s = .next (answer (0x83#8 ++ s.status ++ 0x0000#16) s)

/-- GET_STATUS maps STATUS to its code and changes nothing (R89). -/
def Obligations.GetStatusReportsStatus : Prop :=
  ∀ s : State, Serving .getStatus s →
    ∀ code : Byte, code = (if s.status = 0x00#8 then 0x01#8 else if s.status = 0x01#8 then 0x02#8
        else if s.status = 0x02#8 then 0x03#8 else 0x84#8) →
      exec .getStatus s = .next (answer (code ++ s.status ++ 0x0000#16) s)

/-- GET on an INVALID or unrecognized STATUS proceeds; a SIZE of 0 wraps to 2^SW - 1 and STATUS becomes PARTIAL, and any
other SIZE of the register goes down by 1 (R91). -/
def Obligations.GetProceedsOnCorruptedStatus : Prop :=
  ∀ s : State, Serving .get s → 3 ≤ s.status.toNat → 0 < s.cap → s.size < 2 ^ sizeWidth s.cap →
    ∃ t, exec .get s = .next t ∧
      (s.size = 0 → t.size = 2 ^ sizeWidth s.cap - 1 ∧ t.status = 0x01#8) ∧
      (0 < s.size → t.size = s.size - 1 ∧ t.status = if s.size = 1 then 0x00#8 else 0x01#8)

/-- R92: a GET that reads a null slot answers Ok with DATA 0x0000; no state that meets the queue invariant, and so none
a run reaches, has one to read; and DEALLOC of the null handle is a DoubleFreeWarning that changes nothing. -/
def Obligations.NullSlotReadsAsNullHandle : Prop :=
  (∀ s : State, Serving .get s → s.status ≠ 0x00#8 → s.slots[s.tail]? = some 0x0000#16 →
    ∃ t, exec .get s = .next t ∧ (t.port s.active).rsp = some (0x00#8 ++ t.status ++ 0x0000#16)) ∧
  (∀ s : State, QueueInv s → s.status ≠ 0x00#8 → ∃ h, s.slots[s.tail]? = some h ∧ h ≠ 0x0000#16) ∧
  (∀ s : State, Reached s → s.mode = .run → QueueInv s) ∧
  (∀ s : State, Serving (.dealloc 0x0000#16) s →
    exec (.dealloc 0x0000#16) s = .next (answer (0x40#8 ++ s.status ++ 0x0000#16) s))

/-- R93: after a successful Enqueue STATUS is FULL exactly where SIZE = C or HEAD = TAIL, and from a state that meets the
queue invariant, as every state a run reaches does, the two coincide. -/
def Obligations.FullConditionsCoincide : Prop :=
  (∀ (s t : State) (h : Handle), enqueue h s = (.ok, t) →
    (t.status = 0x02#8 ↔ t.size = t.cap ∨ t.head = t.tail)) ∧
  (∀ (s t : State) (h : Handle), QueueInv s → enqueue h s = (.ok, t) →
    1 ≤ t.size ∧ (t.head = t.tail ↔ t.size = t.cap)) ∧
  (∀ s : State, Reached s → s.mode = .run → QueueInv s)

/-- FIFO order: a PUT that succeeds appends its handle to the queue's contents, and a GET that succeeds takes and
answers the oldest (R94, R29 item 5). -/
def Obligations.QueueIsFirstInFirstOut : Prop :=
  (∀ (s : State) (h : Handle), QueueInv s → Serving (.put h) s → h ≠ 0x0000#16 → s.size < s.cap →
    ∃ t, exec (.put h) s = .next t ∧ QueueInv t ∧ queueContents t = queueContents s ++ [h]) ∧
  (∀ s : State, QueueInv s → Serving .get s → 0 < s.size →
    ∃ t h, exec .get s = .next t ∧ QueueInv t ∧ queueContents s = h :: queueContents t ∧
      (t.port s.active).rsp = some (0x00#8 ++ t.status ++ h))

/-- From an empty queue up to C PUTs of non-null handles succeed and are held in order; after C of them STATUS is FULL
and one more PUT fails with QueueFull and changes nothing (R94, items 1 and 2). -/
def Obligations.QueueHoldsCapacityHandles : Prop :=
  ∀ (s : State) (hs : List Handle), QueueInv s → s.mode = .run → s.active = .producer → s.size = 0 →
    hs.length ≤ s.cap → (∀ h ∈ hs, h ≠ 0x0000#16) →
    ∃ t, execAll (hs.map .put) s = .next t ∧ QueueInv t ∧ queueContents t = hs ∧
      (hs.length = s.cap → t.status = 0x02#8 ∧
        ∀ h, h ≠ 0x0000#16 → exec (.put h) t = .next (answer (0x82#8 ++ t.status ++ 0x0000#16) t))

/-- SW is the bit length of C, and IW that of C - 1 but at least 1: SW bits are just enough for 0..C, and IW bits for
0..C-1 (R7). -/
def Obligations.CounterWidthsAreBitLengths : Prop :=
  ∀ c : Nat, 1 ≤ c →
    c < 2 ^ sizeWidth c ∧ 2 ^ (sizeWidth c - 1) ≤ c ∧ 1 ≤ indexWidth c ∧ c - 1 < 2 ^ indexWidth c ∧
    (1 < indexWidth c → 2 ^ (indexWidth c - 1) ≤ c - 1)

/-! ## The Command Pool -/

/-- ALLOC follows its draw. Where the draw is a free handle it answers that handle, which is then live with MOD = FUN =
0x00, DLEN = n and n payload bytes of any value; where the draw fails it answers AllocationError and changes nothing
(R78, R80). The draw is the model's script `env.allocs` (log entry 4). -/
def Obligations.AllocFollowsItsDraw : Prop :=
  (∀ (s : State) (n : Len) (h : Handle) (rest : List (Option Handle)),
    Serving (.alloc n) s → s.env.allocs = some h :: rest → h ≠ 0x0000#16 → Memory.live s.mem h.toNat = false →
    ∃ pay : List Byte, pay.length = n.toNat ∧
      exec (.alloc n) s = .next (answer (0x00#8 ++ s.status ++ h) { s with
        mem := Memory.insert s.mem h.toNat { modId := 0x00#8, funId := 0x00#8, dlen := n, pay := pay }
        env := { s.env with allocs := rest, tick := s.env.tick + 1 } })) ∧
  ∀ (s : State) (n : Len) (rest : List (Option Handle)), Serving (.alloc n) s → s.env.allocs = none :: rest →
    exec (.alloc n) s = .next (answer (0x80#8 ++ s.status ++ 0x0000#16)
      { s with env := { s.env with allocs := rest } })

/-- Whatever the draw, ALLOC answers Ok with a handle that was neither null nor live and is live now, or AllocationError
with nothing live that was not; with every handle live it is AllocationError (R78, R80). -/
def Obligations.AllocCompletesUnderEveryDraw : Prop :=
  ∀ (s : State) (n : Len), Serving (.alloc n) s →
    ∃ t, exec (.alloc n) s = .next t ∧
      ((t.mem = s.mem ∧ (t.port s.active).rsp = some (0x80#8 ++ s.status ++ 0x0000#16)) ∨
       (∃ h, h ≠ 0x0000#16 ∧ Memory.live s.mem h.toNat = false ∧
          (t.port s.active).rsp = some (0x00#8 ++ s.status ++ h) ∧
          ∃ r, Memory.find t.mem h.toNat = some r ∧ r.modId = 0x00#8 ∧ r.funId = 0x00#8 ∧ r.dlen = n ∧
            r.pay.length = n.toNat)) ∧
      ((∀ h : Handle, h ≠ 0x0000#16 → Memory.live s.mem h.toNat = true) →
        (t.port s.active).rsp = some (0x80#8 ++ s.status ++ 0x0000#16))

/-- DEALLOC of a live handle releases it, and no other, and answers Ok; of the null handle or of a handle that is not
live it answers DoubleFreeWarning and changes nothing (R79, R81). -/
def Obligations.DeallocReleasesALiveHandle : Prop :=
  ∀ (s : State) (h : Handle), Serving (.dealloc h) s →
    (h ≠ 0x0000#16 → Memory.live s.mem h.toNat = true →
      exec (.dealloc h) s = .next (answer (0x00#8 ++ s.status ++ 0x0000#16)
        { s with mem := Memory.erase s.mem h.toNat }) ∧
      ∀ g, Memory.find (Memory.erase s.mem h.toNat) g = if g = h.toNat then none else Memory.find s.mem g) ∧
    ((h = 0x0000#16 ∨ Memory.live s.mem h.toNat = false) →
      exec (.dealloc h) s = .next (answer (0x40#8 ++ s.status ++ 0x0000#16) s))

/-- R84: a second release while the handle is free gives DoubleFreeWarning and changes nothing; a released handle can be
handed out again, with a record of its own, and a stale release then frees that record. -/
def Obligations.ReleasedHandleCanBeReused : Prop :=
  ∀ (s : State) (h : Handle), h ≠ 0x0000#16 → Memory.live s.mem h.toNat = true →
    ∃ t, poolFree h s = (.ok, t) ∧ poolFree h t = (.doubleFreeWarning, t) ∧
      (∀ g, g ≠ h.toNat → Memory.find t.mem g = Memory.find s.mem g) ∧ SameQueue s t ∧
      ∀ (n : Len) (e : Env) (rest : List (Option Handle)), e.allocs = some h :: rest →
        ∃ u r, poolAlloc n { t with env := e } = (some h, u) ∧ Memory.find u.mem h.toNat = some r ∧ r.dlen = n ∧
          ∃ v, poolFree h u = (.ok, v) ∧ Memory.live v.mem h.toNat = false

/-! ## The frame decoder -/

/-- R66: bytes 0 and 1 of a frame are copied to WMOD and WFUN; nothing else but CNT changes. -/
def Obligations.HeaderBytesAreCopied : Prop :=
  ∀ (s : State) (b : Byte), Serving (.rxByte b) s → FramingInv s →
    (s.cnt = 0#17 → exec (.rxByte b) s = .next (answer (0x00#8 ++ s.status ++ 0x0000#16)
      { s with wmod := b, cnt := 1#17 })) ∧
    (s.cnt = 1#17 → exec (.rxByte b) s = .next (answer (0x00#8 ++ s.status ++ 0x0000#16)
      { s with wfun := b, cnt := 2#17 }))

/-- R67: byte 2 is added into LEN unshifted, on 16 bits; LEN is 0 whenever CNT is 2, so LEN then equals the byte. -/
def Obligations.LengthLowByteIsAdded : Prop :=
  ∀ (s : State) (b : Byte), Serving (.rxByte b) s → FramingInv s → s.cnt = 2#17 →
    exec (.rxByte b) s = .next (answer (0x00#8 ++ s.status ++ 0x0000#16)
      { s with len := s.len + b.setWidth 16, cnt := 3#17 }) ∧
    s.len = 0#16 ∧ s.len + b.setWidth 16 = b.setWidth 16

/-- Byte 3 with a non-zero length and an allocation that is drawn to succeed: LEN, TOTAL = 4 + LEN, the working buffer's
handle in WH and its fresh record, CNT = 4 (R65, R68). -/
def Obligations.LengthHighByteStartsThePayload : Prop :=
  ∀ (s : State) (b : Byte) (n : Len) (h : Handle) (rest : List (Option Handle)),
    Serving (.rxByte b) s → FramingInv s → s.cnt = 3#17 → n = s.len + (b.setWidth 16 <<< 8) → n ≠ 0#16 →
    s.env.allocs = some h :: rest → h ≠ 0x0000#16 → Memory.live s.mem h.toNat = false →
    ∃ pay : List Byte, pay.length = n.toNat ∧
      exec (.rxByte b) s = .next (answer (0x00#8 ++ s.status ++ 0x0000#16) { s with
        len := n, total := 4#17 + n.setWidth 17, wh := h, cnt := 4#17
        mem := Memory.insert s.mem h.toNat { modId := 0x00#8, funId := 0x00#8, dlen := n, pay := pay }
        env := { s.env with allocs := rest, tick := s.env.tick + 1 } })

/-- Byte 3 with a non-zero length and an allocation drawn to fail: TOTAL is extended all the same, DISCARD is set, the
failure is logged once and answered (R68, R74, R96). -/
def Obligations.LengthHighByteAbandonsTheFrame : Prop :=
  ∀ (s : State) (b : Byte) (n : Len) (rest : List (Option Handle)),
    Serving (.rxByte b) s → FramingInv s → s.cnt = 3#17 → n = s.len + (b.setWidth 16 <<< 8) → n ≠ 0#16 →
    s.env.allocs = none :: rest →
    exec (.rxByte b) s = .next (answer (0x80#8 ++ s.status ++ 0x0000#16) { s with
      len := n, total := 4#17 + n.setWidth 17, wh := 0x0000#16, discard := true, cnt := 4#17
      log := s.log ++ [eventOf .allocationError]
      env := { s.env with allocs := rest } })

/-- Byte 3 with a non-zero length under every draw: the length and TOTAL are as R68 says, and the decoder holds its
buffer, or has none and discards (R68, R74, R77). -/
def Obligations.LengthHighByteCompletesUnderEveryDraw : Prop :=
  ∀ (s : State) (b : Byte) (n : Len),
    Serving (.rxByte b) s → FramingInv s → s.cnt = 3#17 → n = s.len + (b.setWidth 16 <<< 8) → n ≠ 0#16 →
    ∃ t, exec (.rxByte b) s = .next t ∧ t.len = n ∧ t.total.toNat = 4 + n.toNat ∧ t.cnt = 4#17 ∧
      t.wmod = s.wmod ∧ t.wfun = s.wfun ∧ SameQueue s t ∧
      ((HoldsBuffer t ∧ t.log = s.log ∧ (t.port s.active).rsp = some (0x00#8 ++ s.status ++ 0x0000#16)) ∨
       (t.wh = 0x0000#16 ∧ t.discard = true ∧ t.mem = s.mem ∧ t.log = s.log ++ [eventOf .allocationError] ∧
          (t.port s.active).rsp = some (0x80#8 ++ s.status ++ 0x0000#16)))

/-- A payload byte that is not the frame's last is byte CNT - 4 of record WH, or is dropped in discard mode; nothing else
but CNT changes (R69, R77). -/
def Obligations.PayloadByteIsStored : Prop :=
  ∀ (s : State) (b : Byte), Serving (.rxByte b) s → FramingInv s → 4 ≤ s.cnt.toNat →
    s.cnt.toNat + 1 < s.total.toNat →
    (s.discard = true → exec (.rxByte b) s = .next (answer (0x00#8 ++ s.status ++ 0x0000#16)
      { s with cnt := s.cnt + 1#17 })) ∧
    (∀ r : Record, s.discard = false → Memory.wf s.mem = true → Memory.find s.mem s.wh.toNat = some r →
      r.dlen = s.len →
      exec (.rxByte b) s = .next (answer (0x00#8 ++ s.status ++ 0x0000#16) { s with
        cnt := s.cnt + 1#17
        mem := Memory.insert s.mem s.wh.toNat { r with pay := r.pay.set (s.cnt.toNat - 4) b } }))

/-- The last payload byte of a frame whose Command is allocated and whose PUT succeeds: the Command holds the module id,
the function id and the payload, the working buffer is released, the decoder is reset and the handle is in the queue
and in the response (R70, R71, R73, R77). -/
def Obligations.LastByteEnqueuesTheCommand : Prop :=
  ∀ (s : State) (b : Byte) (r : Record) (f : Handle) (rest : List (Option Handle)),
    Serving (.rxByte b) s → FramingInv s → 4 ≤ s.cnt.toNat → s.cnt.toNat + 1 = s.total.toNat →
    Memory.wf s.mem = true → s.discard = false → s.wh ≠ 0x0000#16 → Memory.find s.mem s.wh.toNat = some r →
    r.dlen = s.len → s.env.allocs = some f :: rest → f ≠ 0x0000#16 → Memory.live s.mem f.toNat = false →
    (s.status = 0x00#8 ∨ s.status = 0x01#8) →
    ∃ t, exec (.rxByte b) s = .next t ∧ DecoderIdle t ∧
      (∀ g, Memory.find t.mem g =
        if g = f.toNat then some { modId := s.wmod, funId := s.wfun, dlen := s.len, pay := r.pay.set (s.cnt.toNat - 4) b }
        else if g = s.wh.toNat then none else Memory.find s.mem g) ∧
      t.slots = s.slots.set s.head f ∧ t.head = (s.head + 1) % s.cap ∧
      t.size = (s.size + 1) % 2 ^ sizeWidth s.cap ∧ t.tail = s.tail ∧
      t.status = (if t.size = s.cap ∨ t.head = s.tail then 0x02#8 else 0x01#8) ∧ t.log = s.log ∧
      (t.port s.active).rsp = some (0x00#8 ++ t.status ++ f)

/-- The last byte of a frame under every draw, also where a DEALLOC named WH in flight: the decoder is back at its
initial configuration, and the result is one of R77's last-byte rows, with its log event; where a Command is enqueued,
HEAD, SIZE and STATUS follow as R86 says, and where none is the queue is unchanged. The Command is a handle that was not
live, and where it is not WH itself its record holds the ids and the length; no other handle becomes live, and none does
where no Command is enqueued: a dropped Command is released (R30, R70, R71, R73, R77, R82). Where WH was released in
flight, what the last payload byte does to the records rests on log entries 7 and 8, the model's choice. -/
def Obligations.LastByteEndsTheFrame : Prop :=
  ∀ (s : State) (b : Byte), Serving (.rxByte b) s → FramingInv s →
    ((s.cnt = 3#17 ∧ s.len + (b.setWidth 16 <<< 8) = 0#16) ∨
      (4 ≤ s.cnt.toNat ∧ s.cnt.toNat + 1 = s.total.toNat)) →
    ∃ t, exec (.rxByte b) s = .next t ∧ DecoderIdle t ∧ t.tail = s.tail ∧
      ((s.discard = true ∧ SameQueue s t ∧ t.mem = s.mem ∧ t.log = s.log ∧
          (t.port s.active).rsp = some (0x00#8 ++ s.status ++ 0x0000#16)) ∨
       (s.discard = false ∧ SameQueue s t ∧ MakesLiveOnly (fun _ => False) s t ∧
          t.log = s.log ++ [eventOf .allocationError] ∧
          (t.port s.active).rsp = some (0x80#8 ++ s.status ++ 0x0000#16)) ∨
       (s.discard = false ∧ (s.status = 0x00#8 ∨ s.status = 0x01#8) ∧ t.log = s.log ∧
          t.head = (s.head + 1) % s.cap ∧ t.size = (s.size + 1) % 2 ^ sizeWidth s.cap ∧
          t.status = (if t.size = s.cap ∨ t.head = s.tail then 0x02#8 else 0x01#8) ∧
          ∃ f, f ≠ 0x0000#16 ∧ Memory.live s.mem f.toNat = false ∧ MakesLiveOnly (fun g => g = f.toNat) s t ∧
            (f ≠ s.wh → ∃ r, Memory.find t.mem f.toNat = some r ∧ r.modId = s.wmod ∧ r.funId = s.wfun ∧
              r.dlen = if s.cnt = 3#17 then 0#16 else s.len) ∧
            t.slots = s.slots.set s.head f ∧
            (t.port s.active).rsp = some (0x00#8 ++ t.status ++ f)) ∨
       (s.discard = false ∧ s.status = 0x02#8 ∧ SameQueue s t ∧ MakesLiveOnly (fun _ => False) s t ∧
          t.log = s.log ++ [eventOf .queueFull] ∧
          (t.port s.active).rsp = some (0x82#8 ++ s.status ++ 0x0000#16)) ∨
       (s.discard = false ∧ 3 ≤ s.status.toNat ∧ SameQueue s t ∧ MakesLiveOnly (fun _ => False) s t ∧
          t.log = s.log ++ [eventOf .queueInvalid] ∧
          (t.port s.active).rsp = some (0x84#8 ++ s.status ++ 0x0000#16)))

/-- R75: the two length bytes added into a zero accumulator never wrap and give their little-endian combination, for all
65536 pairs; CNT and TOTAL never pass 65539; and a frame with LEN = 65535 is 65539 bytes long, its Finalize running
exactly when CNT becomes 65539. -/
def Obligations.LengthIsLittleEndian : Prop :=
  (∀ b2 b3 : Byte, addLengthHigh (addLengthLow 0#16 b2) b3 = b3 ++ b2 ∧
    (addLengthLow 0#16 b2).toNat = b2.toNat ∧
    (addLengthHigh (addLengthLow 0#16 b2) b3).toNat = b2.toNat + 256 * b3.toNat) ∧
  (∀ s : State, FramingInv s → s.total.toNat ≤ 65539 ∧ s.cnt.toNat + 1 ≤ 65539) ∧
  (∀ s : State, Reached s → s.mode = .run → FramingInv s) ∧
  ∀ (s : State) (b : Byte), FramingInv s → 4 ≤ s.cnt.toNat → s.len = 0xFFFF#16 →
    s.total.toNat = 65539 ∧
    receive b s = if s.cnt.toNat + 1 = 65539 then finalize (countByte (takeByte b s).2)
      else (.ok, 0x0000#16, countByte (takeByte b s).2)

/-- A whole frame round-trips, for every payload of up to 65535 bytes: it puts exactly one Command into the queue, with
its module id, function id and payload bytes, leaves the decoder ready for the next frame, and no other record is
changed (R63, R65, R71, R72, R94). -/
def Obligations.FrameRoundTrips : Prop :=
  ∀ (s : State) (m f : Byte) (payload : List Byte) (w h : Handle) (rest : List (Option Handle)),
    s.mode = .run → s.active = .producer → QueueInv s → DecoderIdle s → Memory.wf s.mem = true → s.size < s.cap →
    payload.length ≤ 65535 → h ≠ 0x0000#16 → Memory.live s.mem h.toNat = false →
    w ≠ 0x0000#16 → Memory.live s.mem w.toNat = false → w ≠ h →
    s.env.allocs = (if payload = [] then some h :: rest else some w :: some h :: rest) →
    ∃ t, execAll (frameRequests m f payload) s = .next t ∧ DecoderIdle t ∧ QueueInv t ∧
      queueContents t = queueContents s ++ [h] ∧
      (∀ g, Memory.find t.mem g =
        if g = h.toNat then
          some { modId := m, funId := f, dlen := BitVec.ofNat 16 payload.length, pay := payload }
        else Memory.find s.mem g) ∧
      t.log = s.log ∧ t.env.allocs = rest ∧ (t.port s.active).rsp = some (0x00#8 ++ t.status ++ h)

/-- A whole frame whose working buffer cannot be allocated is counted out and dropped: one log event, no record and no
queue register changed, and the decoder ready for the next frame (R74). -/
def Obligations.AbandonedFrameIsCountedOut : Prop :=
  ∀ (s : State) (m f : Byte) (payload : List Byte) (rest : List (Option Handle)),
    s.mode = .run → s.active = .producer → DecoderIdle s → payload ≠ [] → payload.length ≤ 65535 →
    s.env.allocs = none :: rest →
    ∃ t, execAll (frameRequests m f payload) s = .next t ∧ DecoderIdle t ∧ SameQueue s t ∧ t.mem = s.mem ∧
      t.log = s.log ++ [eventOf .allocationError] ∧
      (t.port s.active).rsp = some (0x00#8 ++ s.status ++ 0x0000#16)

/-! ## Invariants -/

/-- Every step keeps the capacity positive, the record store canonical, and in RUN the queue and framing invariants
(R29, R30). The canonical store is the model's form of the spec's records (log entry 21); that a byte outside a reused
record keeps it is log entry 8's choice. -/
def Obligations.StepKeepsTheInvariants : Prop :=
  ∀ s t : State, BlockInv s → step s = .next t → BlockInv t

/-- In RUN every operation but a DEALLOC of the working handle keeps the working buffer's part of R30's item 3. -/
def Obligations.WorkingBufferIsKept : Prop :=
  ∀ (i : Instr) (s t : State), s.mode = .run → FramingInv s → WorkingInv s → exec i s = .next t → t.mode = .run →
    (∀ h, i = .dealloc h → h ≠ s.wh ∨ h = 0x0000#16) → WorkingInv t

/-- State.reset meets the invariants. -/
def Obligations.ResetStateMeetsTheInvariants : Prop :=
  BlockInv State.reset ∧ WorkingInv State.reset

/-- Every state a run reaches meets the invariants (R29, R30); of the canonical record store, which is the model's form
(log entry 21), after a byte outside a reused record that is log entry 8's choice. -/
def Obligations.ReachedStatesMeetTheInvariants : Prop :=
  ∀ s : State, Reached s → BlockInv s

/-- State.reset holds R120's values. -/
def Obligations.ResetStateHoldsTheResetValues : Prop :=
  State.reset.mode = .run ∧ State.reset.head = 0 ∧ State.reset.tail = 0 ∧ State.reset.size = 0 ∧
  State.reset.status = 0x00#8 ∧ State.reset.slots = List.replicate State.reset.cap 0x0000#16 ∧
  DecoderIdle State.reset ∧ State.reset.mem = [] ∧ State.reset.log = []

/-! ## Whole-machine rules -/

/-- No operation and no step changes the capacity (R6, R18); MODE is OFF at power-on, and an operation changes it only
if it is RESET on port K (R17). -/
def Obligations.CapacityIsFixedAndOnlyResetChangesMode : Prop :=
  (∀ (i : Instr) (s t : State), exec i s = .next t →
    t.cap = s.cap ∧ (t.mode ≠ s.mode → i = .reset ∧ s.active = .control)) ∧
  (∀ s t : State, step s = .next t → t.cap = s.cap) ∧
  ∀ g : State, (State.powerOn g).mode = .off

/-- HEAD is changed only by PUT, a frame's finalize and RESET, and TAIL only by GET and RESET: there is no third writer
(R19, R20, R43). -/
def Obligations.HeadAndTailHaveOneWriterEach : Prop :=
  ∀ (i : Instr) (s t : State), exec i s = .next t →
    (t.head ≠ s.head → (∃ h, i = .put h) ∨ (∃ b, i = .rxByte b) ∨ i = .reset) ∧
    (t.tail ≠ s.tail → i = .get ∨ i = .reset)

/-- The log only grows, by at most one event an operation, only in RX_BYTE, and only with the three codes of R96. -/
def Obligations.OnlyTheDecoderLogs : Prop :=
  ∀ (i : Instr) (s t : State), FramingInv s → exec i s = .next t →
    ∃ es : List Event, t.log = s.log ++ es ∧ es.length ≤ 1 ∧ (es ≠ [] → ∃ b, i = .rxByte b) ∧
      ∀ e ∈ es, e = eventOf .allocationError ∨ e = eventOf .queueFull ∨ e = eventOf .queueInvalid

/-! ## Frames: what an operation leaves unchanged -/

/-- NOP and GET_STATUS leave everything unchanged but the response, and so are idempotent (R38). -/
def Obligations.NopAndGetStatusFrame : Prop :=
  ∀ (i : Instr) (s t : State), (i = .nop ∨ i = .getStatus) → exec i s = .next t →
    SameOutside s t ∧ SameQueue s t ∧ SameDecoder s t ∧ t.mem = s.mem ∧ t.log = s.log ∧ t.env = s.env ∧
    exec i t = .next t

/-- PUT writes HEAD, SIZE, STATUS and the slot at HEAD, and nothing else: no decoder register, no record byte (R36). -/
def Obligations.PutFrame : Prop :=
  ∀ (h : Handle) (s t : State), exec (.put h) s = .next t →
    SameOutside s t ∧ SameDecoder s t ∧ t.log = s.log ∧ t.env = s.env ∧ t.tail = s.tail ∧
    (∀ g i, Memory.byte t.mem g i = Memory.byte s.mem g i) ∧ SameRecords (fun _ => True) s t ∧
    t.slots.length = s.slots.length ∧ ∀ j, j ≠ s.head → t.slots[j]? = s.slots[j]?

/-- GET writes TAIL, SIZE, STATUS and the slot at TAIL, and nothing else (R36). -/
def Obligations.GetFrame : Prop :=
  ∀ s t : State, exec .get s = .next t →
    SameOutside s t ∧ SameDecoder s t ∧ t.log = s.log ∧ t.env = s.env ∧ t.head = s.head ∧
    (∀ g i, Memory.byte t.mem g i = Memory.byte s.mem g i) ∧ SameRecords (fun _ => True) s t ∧
    t.slots.length = s.slots.length ∧ ∀ j, j ≠ s.tail → t.slots[j]? = s.slots[j]?

/-- ALLOC changes no queue or decoder register and nothing of a handle that is live; at most the handle it answers
becomes live (R36, R80). -/
def Obligations.AllocFrame : Prop :=
  ∀ (n : Len) (s t : State), exec (.alloc n) s = .next t →
    SameOutside s t ∧ SameQueue s t ∧ SameDecoder s t ∧ t.log = s.log ∧
    SameRecords (fun g => Memory.live s.mem g = true) s t ∧
    ∀ g, Memory.live s.mem g = false → Memory.live t.mem g = true →
      ∃ w, (t.port s.active).rsp = some w ∧ g = (dataField w).toNat

/-- DEALLOC changes no queue or decoder register and nothing of another handle (R36, R81). -/
def Obligations.DeallocFrame : Prop :=
  ∀ (h : Handle) (s t : State), exec (.dealloc h) s = .next t →
    SameOutside s t ∧ SameQueue s t ∧ SameDecoder s t ∧ t.log = s.log ∧ t.env = s.env ∧
    SameRecords (fun g => g ≠ h.toNat) s t

/-- RX_BYTE of a byte that does not end its frame, also where a DEALLOC named WH in flight: no queue register changes,
each decoder register changes by its own byte only, no record changes before byte 3, and byte 3 changes nothing of a live
handle. A payload byte changes no record but WH's, whose liveness and length it keeps; where CNT - 4 lies inside that
record, as it does under the decoder invariant, or WH is not live, or DISCARD is 1, it changes no field and no byte of it
but payload byte CNT - 4 (R30, R36, R66 to R69). That a byte outside a reused WH's too short record changes no other record
and keeps WH's record at its length is the model's choice and no rule of the spec (log entry 8, DESIGN CHOICE, unsafe for
claims about other records), and so is that a byte for a WH that is not live changes nothing (log entry 7, DEDUCED). -/
def Obligations.RxByteFrameInsideAFrame : Prop :=
  ∀ (b : Byte) (s t : State), FramingInv s → exec (.rxByte b) s = .next t →
    (s.cnt.toNat ≤ 2 ∨ (s.cnt = 3#17 ∧ s.len + (b.setWidth 16 <<< 8) ≠ 0#16) ∨
      (4 ≤ s.cnt.toNat ∧ s.cnt.toNat + 1 < s.total.toNat)) →
    SameOutside s t ∧ SameQueue s t ∧
    (s.cnt ≠ 0#17 → t.wmod = s.wmod) ∧ (s.cnt ≠ 1#17 → t.wfun = s.wfun) ∧
    (s.cnt ≠ 2#17 → s.cnt ≠ 3#17 → t.len = s.len) ∧
    (s.cnt ≠ 3#17 → t.total = s.total ∧ t.wh = s.wh ∧ t.discard = s.discard ∧ t.log = s.log ∧
      t.env.allocs = s.env.allocs ∧ t.env.builds = s.env.builds ∧ t.env.serves = s.env.serves) ∧
    (s.cnt.toNat ≤ 2 → t.mem = s.mem ∧ t.env = s.env) ∧
    (s.cnt = 3#17 → SameRecords (fun g => Memory.live s.mem g = true) s t) ∧
    (4 ≤ s.cnt.toNat → SameRecords (fun g => g ≠ s.wh.toNat) s t ∧
      (Memory.find t.mem s.wh.toNat).map (fun r => (r.dlen, r.pay.length)) =
        (Memory.find s.mem s.wh.toNat).map fun r => (r.dlen, r.pay.length)) ∧
    (4 ≤ s.cnt.toNat →
      (s.discard = true ∨ ∀ r, Memory.find s.mem s.wh.toNat = some r → s.cnt.toNat - 4 < r.pay.length) →
      t.env = s.env ∧
      (Memory.find t.mem s.wh.toNat).map (fun r => (r.modId, r.funId)) =
        (Memory.find s.mem s.wh.toNat).map (fun r => (r.modId, r.funId)) ∧
      ∀ (g : Handle) (j : Nat), ¬(g = s.wh ∧ j = s.cnt.toNat - 4) →
        Memory.byte t.mem g j = Memory.byte s.mem g j) ∧
    (4 ≤ s.cnt.toNat → WorkingInv s → Memory.wf s.mem = true →
      s.discard = true ∨ ∀ r, Memory.find s.mem s.wh.toNat = some r → s.cnt.toNat - 4 < r.pay.length)

/-- RX_BYTE of a byte that ends its frame, also where a DEALLOC named WH in flight, leaves TAIL, the requests and every
record unchanged that is live and is not WH's, and of the slots at most the one at HEAD changes; WH is not live
afterwards; and a handle that becomes live is the DATA of an Ok response, so that none does where the frame is discarded,
its Command cannot be allocated or PUT fails: a dropped Command is released (R30, R36, R71, R82). Where WH was released in
flight, and perhaps handed out again with a record too short for the last byte, that the byte changes no other record and
makes none live is the model's choice and no rule of the spec (log entry 8, DESIGN CHOICE, unsafe for claims about other
records; for a WH that is not live log entry 7, DEDUCED). -/
def Obligations.RxByteFrameAtTheBoundary : Prop :=
  ∀ (b : Byte) (s t : State), FramingInv s → Serving (.rxByte b) s →
    exec (.rxByte b) s = .next t →
    ((s.cnt = 3#17 ∧ s.len + (b.setWidth 16 <<< 8) = 0#16) ∨
      (4 ≤ s.cnt.toNat ∧ s.cnt.toNat + 1 = s.total.toNat)) →
    SameOutside s t ∧ t.tail = s.tail ∧ DecoderIdle t ∧
    SameRecords (fun g => Memory.live s.mem g = true ∧ g ≠ s.wh.toNat) s t ∧
    (s.discard = false → s.wh ≠ 0x0000#16 → Memory.live t.mem s.wh.toNat = false) ∧
    MakesLiveOnly (fun g => ∃ w, (t.port s.active).rsp = some w ∧ resultField w = 0x00#8 ∧
      dataField w ≠ 0x0000#16 ∧ g = (dataField w).toNat) s t ∧
    t.slots.length = s.slots.length ∧ ∀ j, j ≠ s.head → t.slots[j]? = s.slots[j]?

/-! ## The consumer -/

/-- The Consumer Loop polls with GET. After a GET that answers Ok with a handle it runs the handler registered for the
record's ids on the record's payload, or reports UnknownCommand where none is registered, and whatever the handler did it
issues exactly one DEALLOC of that handle before it polls again; a failed GET is polled again (R98). -/
def Obligations.ConsumerReleasesEachHandleOnce : Prop :=
  (∀ (table : DispatchTable) (st : Byte) (h : Handle) (w : Word) (s s' : State),
    consumerRequest .polling = .get ∧
    ∃ done, consumerTurn table (responseWord .ok st h) .polling s = (.holding h, some done) ∧
      (∀ r, Memory.find s.mem h.toNat = some r →
        (∀ handler, table r.modId r.funId = some handler → done = .ran r.pay (handler r.pay)) ∧
        (table r.modId r.funId = none → done = .reported .unknownCommand)) ∧
      consumerRequest (.holding h) = .dealloc h ∧
      consumerTurn table w (.holding h) s' = (.polling, none)) ∧
  ∀ (table : DispatchTable) (c : Code) (st : Byte) (h : Handle) (s : State), c ≠ .ok →
    consumerTurn table (responseWord c st h) .polling s = (.polling, none)
end

