-- ==== Sys2Proof/Laws/Memory.lean ====
section
/-! SUPPORT. The record store: what an insertion and an erasure read as, that both keep the canonical form, and which
handles an allocation can take. -/

namespace Sys2Proof.Machine

/-! ## Read after write -/

theorem Memory.find_insert_self (m : Memory) (h : Nat) (r : Record) :
    Memory.find (Memory.insert m h r) h = some r := by
  induction m with
  | nil => simp [Memory.insert, Memory.find]
  | cons e rest ih =>
    obtain ⟨k, x⟩ := e
    rw [Memory.insert]
    split
    · simp [Memory.find]
    · split
      · simp [Memory.find]
      · rw [Memory.find, if_neg (by omega), ih]

theorem Memory.find_insert_other (m : Memory) {h g : Nat} (r : Record) (ne : g ≠ h) :
    Memory.find (Memory.insert m h r) g = Memory.find m g := by
  induction m with
  | nil => simp [Memory.insert, Memory.find, Ne.symm ne]
  | cons e rest ih =>
    obtain ⟨k, x⟩ := e
    rw [Memory.insert]
    split
    · rw [Memory.find, if_neg (Ne.symm ne)]
    · split
      · next hk => subst hk; simp [Memory.find, Ne.symm ne]
      · simp only [Memory.find, ih]

theorem Memory.find_erase_self (m : Memory) (h : Nat) : Memory.find (Memory.erase m h) h = none := by
  induction m with
  | nil => rfl
  | cons e rest ih =>
    obtain ⟨k, x⟩ := e
    rw [Memory.erase]
    split
    · exact ih
    · next hk => rw [Memory.find, if_neg hk, ih]

theorem Memory.find_erase_other (m : Memory) {h g : Nat} (ne : g ≠ h) :
    Memory.find (Memory.erase m h) g = Memory.find m g := by
  induction m with
  | nil => rfl
  | cons e rest ih =>
    obtain ⟨k, x⟩ := e
    rw [Memory.erase]
    split
    · next hk => subst hk; rw [Memory.find, if_neg (Ne.symm ne), ih]
    · simp only [Memory.find, ih]

/-- Reading any handle after an insertion. -/
theorem Memory.find_insert (m : Memory) (h g : Nat) (r : Record) :
    Memory.find (Memory.insert m h r) g = if g = h then some r else Memory.find m g := by
  split
  · next e => subst e; exact Memory.find_insert_self m g r
  · next e => exact Memory.find_insert_other m r e

/-- Reading any handle after an erasure. -/
theorem Memory.find_erase (m : Memory) (h g : Nat) :
    Memory.find (Memory.erase m h) g = if g = h then none else Memory.find m g := by
  split
  · next e => subst e; exact Memory.find_erase_self m g
  · next e => exact Memory.find_erase_other m e

/-! ## The canonical form -/

theorem Memory.risesFrom_mono {lo lo' : Nat} {m : Memory} (le : lo' ≤ lo) (h : Memory.risesFrom lo m = true) :
    Memory.risesFrom lo' m = true := by
  cases m with
  | nil => rfl
  | cons e rest =>
    simp only [Memory.risesFrom, Bool.and_eq_true, decide_eq_true_eq] at h ⊢
    exact ⟨by omega, h.2⟩

theorem Memory.risesFrom_insert {lo : Nat} {m : Memory} (h : Nat) (r : Record) (lt : lo < h)
    (rises : Memory.risesFrom lo m = true) : Memory.risesFrom lo (Memory.insert m h r) = true := by
  induction m generalizing lo with
  | nil => simp [Memory.insert, Memory.risesFrom, lt]
  | cons e rest ih =>
    obtain ⟨k, x⟩ := e
    simp only [Memory.risesFrom, Bool.and_eq_true, decide_eq_true_eq] at rises
    rw [Memory.insert]
    split
    · simp only [Memory.risesFrom, Bool.and_eq_true, decide_eq_true_eq]
      exact ⟨lt, by assumption, rises.2⟩
    · split
      · next hk => subst hk; simpa [Memory.risesFrom] using rises
      · simp only [Memory.risesFrom, Bool.and_eq_true, decide_eq_true_eq]
        exact ⟨rises.1, ih (by omega) rises.2⟩

theorem Memory.risesFrom_erase {lo : Nat} {m : Memory} (h : Nat) (rises : Memory.risesFrom lo m = true) :
    Memory.risesFrom lo (Memory.erase m h) = true := by
  induction m generalizing lo with
  | nil => rfl
  | cons e rest ih =>
    obtain ⟨k, x⟩ := e
    simp only [Memory.risesFrom, Bool.and_eq_true, decide_eq_true_eq] at rises
    rw [Memory.erase]
    split
    · exact Memory.risesFrom_mono (Nat.le_of_lt rises.1) (ih rises.2)
    · simp only [Memory.risesFrom, Bool.and_eq_true, decide_eq_true_eq]
      exact ⟨rises.1, ih rises.2⟩

theorem Memory.mem_insert {m : Memory} {h : Nat} {r : Record} {e : Nat × Record} (he : e ∈ Memory.insert m h r) :
    e = (h, r) ∨ e ∈ m := by
  induction m with
  | nil => simpa [Memory.insert] using he
  | cons d rest ih =>
    obtain ⟨k, x⟩ := d
    rw [Memory.insert] at he
    split at he
    · simpa using he
    · split at he
      · rcases List.mem_cons.1 he with rfl | he
        · exact .inl rfl
        · exact .inr (List.mem_cons_of_mem _ he)
      · rcases List.mem_cons.1 he with rfl | he
        · exact .inr List.mem_cons_self
        · exact (ih he).imp_right (List.mem_cons_of_mem _)

theorem Memory.mem_erase {m : Memory} {h : Nat} {e : Nat × Record} (he : e ∈ Memory.erase m h) : e ∈ m := by
  induction m with
  | nil => exact he
  | cons d rest ih =>
    obtain ⟨k, x⟩ := d
    rw [Memory.erase] at he
    split at he
    · exact List.mem_cons_of_mem _ (ih he)
    · rcases List.mem_cons.1 he with rfl | he
      · exact List.mem_cons_self
      · exact List.mem_cons_of_mem _ (ih he)

/-- An insertion of a sound record under a handle keeps the canonical form. -/
theorem Memory.wf_insert {m : Memory} {h : Nat} {r : Record} (wf : Memory.wf m = true) (pos : 0 < h)
    (lt : h < 65536) (len : r.pay.length = r.dlen.toNat) : Memory.wf (Memory.insert m h r) = true := by
  simp only [Memory.wf, Bool.and_eq_true, List.all_eq_true] at wf ⊢
  refine ⟨Memory.risesFrom_insert h r pos wf.1, fun e he => ?_⟩
  rcases Memory.mem_insert he with rfl | he
  · simp [Memory.entryOk, pos, lt, len]
  · exact wf.2 e he

/-- An erasure keeps the canonical form. -/
theorem Memory.wf_erase {m : Memory} (h : Nat) (wf : Memory.wf m = true) : Memory.wf (Memory.erase m h) = true := by
  simp only [Memory.wf, Bool.and_eq_true, List.all_eq_true] at wf ⊢
  exact ⟨Memory.risesFrom_erase h wf.1, fun e he => wf.2 e (Memory.mem_erase he)⟩

theorem Memory.mem_of_find {m : Memory} {h : Nat} {r : Record} (hf : Memory.find m h = some r) : (h, r) ∈ m := by
  induction m with
  | nil => cases hf
  | cons e rest ih =>
    obtain ⟨k, x⟩ := e
    rw [Memory.find] at hf
    split at hf
    · next hk => cases hf; subst hk; exact List.mem_cons_self
    · exact List.mem_cons_of_mem _ (ih hf)

/-- What is found in a canonical store is sound. -/
theorem Memory.wf_find {m : Memory} {h : Nat} {r : Record} (wf : Memory.wf m = true)
    (hf : Memory.find m h = some r) : 0 < h ∧ h < 65536 ∧ r.pay.length = r.dlen.toNat := by
  simp only [Memory.wf, Bool.and_eq_true, List.all_eq_true] at wf
  simpa [Memory.entryOk, and_assoc] using wf.2 _ (Memory.mem_of_find hf)

theorem Memory.risesFrom_map {lo : Nat} {l : List Nat} (f : Nat → Record) (lt : ∀ h ∈ l, lo < h)
    (sorted : l.Pairwise (· < ·)) : Memory.risesFrom lo (l.map fun h => (h, f h)) = true := by
  induction l generalizing lo with
  | nil => rfl
  | cons a rest ih =>
    simp only [List.map_cons, Memory.risesFrom, Bool.and_eq_true, decide_eq_true_eq]
    exact ⟨lt a List.mem_cons_self, ih (fun h hh => List.rel_of_pairwise_cons sorted hh) sorted.of_cons⟩

/-- The store a failed construction leaves is canonical, whatever the free values are. -/
theorem Memory.wf_unspecified (r : OffRegs) : Memory.wf (unspecifiedMemory r) = true := by
  simp only [Memory.wf, Bool.and_eq_true, List.all_eq_true, unspecifiedMemory]
  refine ⟨Memory.risesFrom_map _ (fun h hh => ?_) ?_, fun e he => ?_⟩
  · have := (List.mem_range'_1.1 (List.mem_filter.1 hh).1).1
    omega
  · exact List.Pairwise.filter _ (List.pairwise_lt_range' 1)
  · obtain ⟨h, hh, rfl⟩ := List.mem_map.1 he
    have := List.mem_range'_1.1 (List.mem_filter.1 hh).1
    simp only [Memory.entryOk, Bool.and_eq_true, decide_eq_true_eq, List.length_map, List.length_range]
    exact ⟨⟨by omega, by omega⟩, trivial⟩

/-! ## The handle an allocation takes -/

/-- What an allocation takes is neither null nor live (R78). -/
theorem freeFrom_free {m : Memory} {fuel : Nat} {w h : Handle} (hf : freeFrom m fuel w = some h) :
    h ≠ 0x0000#16 ∧ Memory.live m h.toNat = false := by
  induction fuel generalizing w with
  | zero => cases hf
  | succ n ih =>
    rw [freeFrom] at hf
    split at hf
    · exact ih hf
    · next hw =>
      cases hf
      rw [not_or] at hw
      exact ⟨hw.1, by simpa using hw.2⟩

theorem pickHandle_free {m : Memory} {w h : Handle} (hf : pickHandle m w = some h) :
    h ≠ 0x0000#16 ∧ Memory.live m h.toNat = false :=
  freeFrom_free hf

/-- A free handle the environment chooses is the one taken: every free handle is admitted (R78, 93 I3). -/
theorem pickHandle_self {m : Memory} {w : Handle} (ne : w ≠ 0x0000#16) (free : Memory.live m w.toNat = false) :
    pickHandle m w = some w := by
  rw [pickHandle, freeFrom, if_neg]
  simp [ne, free]

/-- Nothing is taken from a stretch of handles none of which is free. -/
theorem freeFrom_none {m : Memory} {fuel : Nat} {w : Handle} (hf : freeFrom m fuel w = none) {k : Nat}
    (lt : k < fuel) : w + BitVec.ofNat 16 k = 0x0000#16 ∨ Memory.live m (w + BitVec.ofNat 16 k).toNat = true := by
  induction fuel generalizing w k with
  | zero => omega
  | succ n ih =>
    rw [freeFrom] at hf
    split at hf
    · next hw =>
      cases k with
      | zero => simpa using hw
      | succ j =>
        have := ih hf (k := j) (by omega)
        have e : w + 1#16 + BitVec.ofNat 16 j = w + BitVec.ofNat 16 (j + 1) := by
          apply BitVec.eq_of_toNat_eq
          simp only [BitVec.toNat_add, BitVec.toNat_ofNat]
          omega
        rwa [e] at this
    · cases hf

/-- An allocation finds no handle only where all 65535 are live (R78). -/
theorem pickHandle_none {m : Memory} {w : Handle} (hf : pickHandle m w = none) {h : Handle} (ne : h ≠ 0x0000#16) :
    Memory.live m h.toNat = true := by
  have := freeFrom_none hf (k := (h - w).toNat) (by have := (h - w).isLt; omega)
  have e : w + BitVec.ofNat 16 (h - w).toNat = h := by
    rw [BitVec.ofNat_toNat, BitVec.setWidth_eq]
    bv_omega
  rw [e] at this
  exact this.resolve_left ne

/-- Where all 65535 handles are live an allocation finds none (R78). -/
theorem pickHandle_all_live {m : Memory} (all : ∀ h : Handle, h ≠ 0x0000#16 → Memory.live m h.toNat = true)
    (w : Handle) : pickHandle m w = none := by
  cases hp : pickHandle m w with
  | none => rfl
  | some h =>
    have := pickHandle_free hp
    rw [all h this.1] at this
    cases this.2

end Sys2Proof.Machine
end

