-- ==== Sys2Proof/Laws/State.lean ====
section
/-! SUPPORT. One lemma per field per update of State, true by computation, so that no later proof unfolds an update. -/

namespace Sys2Proof.Machine

/-! ### setPort -/

@[simp] theorem State.setPort_cap (s : State) (c : Port) (x : PortState) :
    (s.setPort c x).cap = s.cap := by cases c <;> rfl
@[simp] theorem State.setPort_mode (s : State) (c : Port) (x : PortState) :
    (s.setPort c x).mode = s.mode := by cases c <;> rfl
@[simp] theorem State.setPort_head (s : State) (c : Port) (x : PortState) :
    (s.setPort c x).head = s.head := by cases c <;> rfl
@[simp] theorem State.setPort_tail (s : State) (c : Port) (x : PortState) :
    (s.setPort c x).tail = s.tail := by cases c <;> rfl
@[simp] theorem State.setPort_size (s : State) (c : Port) (x : PortState) :
    (s.setPort c x).size = s.size := by cases c <;> rfl
@[simp] theorem State.setPort_status (s : State) (c : Port) (x : PortState) :
    (s.setPort c x).status = s.status := by cases c <;> rfl
@[simp] theorem State.setPort_slots (s : State) (c : Port) (x : PortState) :
    (s.setPort c x).slots = s.slots := by cases c <;> rfl
@[simp] theorem State.setPort_cnt (s : State) (c : Port) (x : PortState) :
    (s.setPort c x).cnt = s.cnt := by cases c <;> rfl
@[simp] theorem State.setPort_total (s : State) (c : Port) (x : PortState) :
    (s.setPort c x).total = s.total := by cases c <;> rfl
@[simp] theorem State.setPort_len (s : State) (c : Port) (x : PortState) :
    (s.setPort c x).len = s.len := by cases c <;> rfl
@[simp] theorem State.setPort_wmod (s : State) (c : Port) (x : PortState) :
    (s.setPort c x).wmod = s.wmod := by cases c <;> rfl
@[simp] theorem State.setPort_wfun (s : State) (c : Port) (x : PortState) :
    (s.setPort c x).wfun = s.wfun := by cases c <;> rfl
@[simp] theorem State.setPort_wh (s : State) (c : Port) (x : PortState) :
    (s.setPort c x).wh = s.wh := by cases c <;> rfl
@[simp] theorem State.setPort_discard (s : State) (c : Port) (x : PortState) :
    (s.setPort c x).discard = s.discard := by cases c <;> rfl
@[simp] theorem State.setPort_mem (s : State) (c : Port) (x : PortState) :
    (s.setPort c x).mem = s.mem := by cases c <;> rfl
@[simp] theorem State.setPort_log (s : State) (c : Port) (x : PortState) :
    (s.setPort c x).log = s.log := by cases c <;> rfl
@[simp] theorem State.setPort_active (s : State) (c : Port) (x : PortState) :
    (s.setPort c x).active = s.active := by cases c <;> rfl
@[simp] theorem State.setPort_env (s : State) (c : Port) (x : PortState) :
    (s.setPort c x).env = s.env := by cases c <;> rfl

@[simp] theorem State.setPort_port_self (s : State) (c : Port) (x : PortState) : (s.setPort c x).port c = x := by
  cases c <;> rfl

theorem State.setPort_port_other (s : State) {c d : Port} (x : PortState) (h : d ≠ c) :
    (s.setPort c x).port d = s.port d := by
  cases c <;> cases d <;> first | exact absurd rfl h | rfl

@[simp] theorem State.setPort_port_reqs (s : State) (c d : Port) (r : Option Word) :
    ((s.setPort c { s.port c with rsp := r }).port d).reqs = (s.port d).reqs := by
  cases c <;> cases d <;> rfl

/-! ### respond -/

@[simp] theorem respond_cap (r : Code) (v : Handle) (s : State) :
    (respond r v s).cap = s.cap := by simp [respond]
@[simp] theorem respond_mode (r : Code) (v : Handle) (s : State) :
    (respond r v s).mode = s.mode := by simp [respond]
@[simp] theorem respond_head (r : Code) (v : Handle) (s : State) :
    (respond r v s).head = s.head := by simp [respond]
@[simp] theorem respond_tail (r : Code) (v : Handle) (s : State) :
    (respond r v s).tail = s.tail := by simp [respond]
@[simp] theorem respond_size (r : Code) (v : Handle) (s : State) :
    (respond r v s).size = s.size := by simp [respond]
@[simp] theorem respond_status (r : Code) (v : Handle) (s : State) :
    (respond r v s).status = s.status := by simp [respond]
@[simp] theorem respond_slots (r : Code) (v : Handle) (s : State) :
    (respond r v s).slots = s.slots := by simp [respond]
@[simp] theorem respond_cnt (r : Code) (v : Handle) (s : State) :
    (respond r v s).cnt = s.cnt := by simp [respond]
@[simp] theorem respond_total (r : Code) (v : Handle) (s : State) :
    (respond r v s).total = s.total := by simp [respond]
@[simp] theorem respond_len (r : Code) (v : Handle) (s : State) :
    (respond r v s).len = s.len := by simp [respond]
@[simp] theorem respond_wmod (r : Code) (v : Handle) (s : State) :
    (respond r v s).wmod = s.wmod := by simp [respond]
@[simp] theorem respond_wfun (r : Code) (v : Handle) (s : State) :
    (respond r v s).wfun = s.wfun := by simp [respond]
@[simp] theorem respond_wh (r : Code) (v : Handle) (s : State) :
    (respond r v s).wh = s.wh := by simp [respond]
@[simp] theorem respond_discard (r : Code) (v : Handle) (s : State) :
    (respond r v s).discard = s.discard := by simp [respond]
@[simp] theorem respond_mem (r : Code) (v : Handle) (s : State) :
    (respond r v s).mem = s.mem := by simp [respond]
@[simp] theorem respond_log (r : Code) (v : Handle) (s : State) :
    (respond r v s).log = s.log := by simp [respond]
@[simp] theorem respond_active (r : Code) (v : Handle) (s : State) :
    (respond r v s).active = s.active := by simp [respond]
@[simp] theorem respond_env (r : Code) (v : Handle) (s : State) :
    (respond r v s).env = s.env := by simp [respond]

theorem respond_port_self (r : Code) (v : Handle) (s : State) :
    (respond r v s).port s.active = { s.port s.active with rsp := some (responseWord r (statOf s) v) } := by
  simp [respond]

theorem respond_port_other (r : Code) (v : Handle) (s : State) {d : Port} (h : d ≠ s.active) :
    (respond r v s).port d = s.port d :=
  State.setPort_port_other s _ h

@[simp] theorem respond_port_reqs (r : Code) (v : Handle) (s : State) (d : Port) :
    ((respond r v s).port d).reqs = (s.port d).reqs := by
  simp [respond]

/-! ### logEvent -/

@[simp] theorem logEvent_cap (c : Code) (s : State) :
    (logEvent c s).cap = s.cap := rfl
@[simp] theorem logEvent_mode (c : Code) (s : State) :
    (logEvent c s).mode = s.mode := rfl
@[simp] theorem logEvent_head (c : Code) (s : State) :
    (logEvent c s).head = s.head := rfl
@[simp] theorem logEvent_tail (c : Code) (s : State) :
    (logEvent c s).tail = s.tail := rfl
@[simp] theorem logEvent_size (c : Code) (s : State) :
    (logEvent c s).size = s.size := rfl
@[simp] theorem logEvent_status (c : Code) (s : State) :
    (logEvent c s).status = s.status := rfl
@[simp] theorem logEvent_slots (c : Code) (s : State) :
    (logEvent c s).slots = s.slots := rfl
@[simp] theorem logEvent_cnt (c : Code) (s : State) :
    (logEvent c s).cnt = s.cnt := rfl
@[simp] theorem logEvent_total (c : Code) (s : State) :
    (logEvent c s).total = s.total := rfl
@[simp] theorem logEvent_len (c : Code) (s : State) :
    (logEvent c s).len = s.len := rfl
@[simp] theorem logEvent_wmod (c : Code) (s : State) :
    (logEvent c s).wmod = s.wmod := rfl
@[simp] theorem logEvent_wfun (c : Code) (s : State) :
    (logEvent c s).wfun = s.wfun := rfl
@[simp] theorem logEvent_wh (c : Code) (s : State) :
    (logEvent c s).wh = s.wh := rfl
@[simp] theorem logEvent_discard (c : Code) (s : State) :
    (logEvent c s).discard = s.discard := rfl
@[simp] theorem logEvent_mem (c : Code) (s : State) :
    (logEvent c s).mem = s.mem := rfl
@[simp] theorem logEvent_log (c : Code) (s : State) :
    (logEvent c s).log = s.log ++ [{ module := Config.logId, status := c, message := none, length := none, payload := none }] := rfl
@[simp] theorem logEvent_active (c : Code) (s : State) :
    (logEvent c s).active = s.active := rfl
@[simp] theorem logEvent_portP (c : Code) (s : State) :
    (logEvent c s).portP = s.portP := rfl
@[simp] theorem logEvent_portQ (c : Code) (s : State) :
    (logEvent c s).portQ = s.portQ := rfl
@[simp] theorem logEvent_portK (c : Code) (s : State) :
    (logEvent c s).portK = s.portK := rfl
@[simp] theorem logEvent_env (c : Code) (s : State) :
    (logEvent c s).env = s.env := rfl

/-! ### bumpTick -/

@[simp] theorem bumpTick_cap (s : State) :
    (bumpTick s).cap = s.cap := rfl
@[simp] theorem bumpTick_mode (s : State) :
    (bumpTick s).mode = s.mode := rfl
@[simp] theorem bumpTick_head (s : State) :
    (bumpTick s).head = s.head := rfl
@[simp] theorem bumpTick_tail (s : State) :
    (bumpTick s).tail = s.tail := rfl
@[simp] theorem bumpTick_size (s : State) :
    (bumpTick s).size = s.size := rfl
@[simp] theorem bumpTick_status (s : State) :
    (bumpTick s).status = s.status := rfl
@[simp] theorem bumpTick_slots (s : State) :
    (bumpTick s).slots = s.slots := rfl
@[simp] theorem bumpTick_cnt (s : State) :
    (bumpTick s).cnt = s.cnt := rfl
@[simp] theorem bumpTick_total (s : State) :
    (bumpTick s).total = s.total := rfl
@[simp] theorem bumpTick_len (s : State) :
    (bumpTick s).len = s.len := rfl
@[simp] theorem bumpTick_wmod (s : State) :
    (bumpTick s).wmod = s.wmod := rfl
@[simp] theorem bumpTick_wfun (s : State) :
    (bumpTick s).wfun = s.wfun := rfl
@[simp] theorem bumpTick_wh (s : State) :
    (bumpTick s).wh = s.wh := rfl
@[simp] theorem bumpTick_discard (s : State) :
    (bumpTick s).discard = s.discard := rfl
@[simp] theorem bumpTick_mem (s : State) :
    (bumpTick s).mem = s.mem := rfl
@[simp] theorem bumpTick_log (s : State) :
    (bumpTick s).log = s.log := rfl
@[simp] theorem bumpTick_active (s : State) :
    (bumpTick s).active = s.active := rfl
@[simp] theorem bumpTick_portP (s : State) :
    (bumpTick s).portP = s.portP := rfl
@[simp] theorem bumpTick_portQ (s : State) :
    (bumpTick s).portQ = s.portQ := rfl
@[simp] theorem bumpTick_portK (s : State) :
    (bumpTick s).portK = s.portK := rfl
@[simp] theorem bumpTick_env (s : State) :
    (bumpTick s).env = { s.env with tick := s.env.tick + 1 } := rfl

/-! ### decoderReset -/

@[simp] theorem decoderReset_cap (s : State) :
    (decoderReset s).cap = s.cap := rfl
@[simp] theorem decoderReset_mode (s : State) :
    (decoderReset s).mode = s.mode := rfl
@[simp] theorem decoderReset_head (s : State) :
    (decoderReset s).head = s.head := rfl
@[simp] theorem decoderReset_tail (s : State) :
    (decoderReset s).tail = s.tail := rfl
@[simp] theorem decoderReset_size (s : State) :
    (decoderReset s).size = s.size := rfl
@[simp] theorem decoderReset_status (s : State) :
    (decoderReset s).status = s.status := rfl
@[simp] theorem decoderReset_slots (s : State) :
    (decoderReset s).slots = s.slots := rfl
@[simp] theorem decoderReset_cnt (s : State) :
    (decoderReset s).cnt = 0#17 := rfl
@[simp] theorem decoderReset_total (s : State) :
    (decoderReset s).total = 4#17 := rfl
@[simp] theorem decoderReset_len (s : State) :
    (decoderReset s).len = 0#16 := rfl
@[simp] theorem decoderReset_wmod (s : State) :
    (decoderReset s).wmod = 0x00#8 := rfl
@[simp] theorem decoderReset_wfun (s : State) :
    (decoderReset s).wfun = 0x00#8 := rfl
@[simp] theorem decoderReset_wh (s : State) :
    (decoderReset s).wh = 0x0000#16 := rfl
@[simp] theorem decoderReset_discard (s : State) :
    (decoderReset s).discard = false := rfl
@[simp] theorem decoderReset_mem (s : State) :
    (decoderReset s).mem = s.mem := rfl
@[simp] theorem decoderReset_log (s : State) :
    (decoderReset s).log = s.log := rfl
@[simp] theorem decoderReset_active (s : State) :
    (decoderReset s).active = s.active := rfl
@[simp] theorem decoderReset_portP (s : State) :
    (decoderReset s).portP = s.portP := rfl
@[simp] theorem decoderReset_portQ (s : State) :
    (decoderReset s).portQ = s.portQ := rfl
@[simp] theorem decoderReset_portK (s : State) :
    (decoderReset s).portK = s.portK := rfl
@[simp] theorem decoderReset_env (s : State) :
    (decoderReset s).env = s.env := rfl

/-! ### constructed -/

@[simp] theorem constructed_cap (s : State) :
    (constructed s).cap = s.cap := rfl
@[simp] theorem constructed_mode (s : State) :
    (constructed s).mode = .run := rfl
@[simp] theorem constructed_head (s : State) :
    (constructed s).head = 0 := rfl
@[simp] theorem constructed_tail (s : State) :
    (constructed s).tail = 0 := rfl
@[simp] theorem constructed_size (s : State) :
    (constructed s).size = 0 := rfl
@[simp] theorem constructed_status (s : State) :
    (constructed s).status = statusEmpty := rfl
@[simp] theorem constructed_slots (s : State) :
    (constructed s).slots = List.replicate s.cap 0x0000#16 := rfl
@[simp] theorem constructed_cnt (s : State) :
    (constructed s).cnt = 0#17 := rfl
@[simp] theorem constructed_total (s : State) :
    (constructed s).total = 4#17 := rfl
@[simp] theorem constructed_len (s : State) :
    (constructed s).len = 0#16 := rfl
@[simp] theorem constructed_wmod (s : State) :
    (constructed s).wmod = 0x00#8 := rfl
@[simp] theorem constructed_wfun (s : State) :
    (constructed s).wfun = 0x00#8 := rfl
@[simp] theorem constructed_wh (s : State) :
    (constructed s).wh = 0x0000#16 := rfl
@[simp] theorem constructed_discard (s : State) :
    (constructed s).discard = false := rfl
@[simp] theorem constructed_mem (s : State) :
    (constructed s).mem = [] := rfl
@[simp] theorem constructed_log (s : State) :
    (constructed s).log = s.log := rfl
@[simp] theorem constructed_active (s : State) :
    (constructed s).active = s.active := rfl
@[simp] theorem constructed_portP (s : State) :
    (constructed s).portP = s.portP := rfl
@[simp] theorem constructed_portQ (s : State) :
    (constructed s).portQ = s.portQ := rfl
@[simp] theorem constructed_portK (s : State) :
    (constructed s).portK = s.portK := rfl
@[simp] theorem constructed_env (s : State) :
    (constructed s).env = s.env := rfl

/-! ### writeSlot -/

@[simp] theorem writeSlot_cap (i : Nat) (h : Handle) (s : State) :
    (writeSlot i h s).cap = s.cap := rfl
@[simp] theorem writeSlot_mode (i : Nat) (h : Handle) (s : State) :
    (writeSlot i h s).mode = s.mode := rfl
@[simp] theorem writeSlot_head (i : Nat) (h : Handle) (s : State) :
    (writeSlot i h s).head = s.head := rfl
@[simp] theorem writeSlot_tail (i : Nat) (h : Handle) (s : State) :
    (writeSlot i h s).tail = s.tail := rfl
@[simp] theorem writeSlot_size (i : Nat) (h : Handle) (s : State) :
    (writeSlot i h s).size = s.size := rfl
@[simp] theorem writeSlot_status (i : Nat) (h : Handle) (s : State) :
    (writeSlot i h s).status = s.status := rfl
@[simp] theorem writeSlot_slots (i : Nat) (h : Handle) (s : State) :
    (writeSlot i h s).slots = s.slots.set i h := rfl
@[simp] theorem writeSlot_cnt (i : Nat) (h : Handle) (s : State) :
    (writeSlot i h s).cnt = s.cnt := rfl
@[simp] theorem writeSlot_total (i : Nat) (h : Handle) (s : State) :
    (writeSlot i h s).total = s.total := rfl
@[simp] theorem writeSlot_len (i : Nat) (h : Handle) (s : State) :
    (writeSlot i h s).len = s.len := rfl
@[simp] theorem writeSlot_wmod (i : Nat) (h : Handle) (s : State) :
    (writeSlot i h s).wmod = s.wmod := rfl
@[simp] theorem writeSlot_wfun (i : Nat) (h : Handle) (s : State) :
    (writeSlot i h s).wfun = s.wfun := rfl
@[simp] theorem writeSlot_wh (i : Nat) (h : Handle) (s : State) :
    (writeSlot i h s).wh = s.wh := rfl
@[simp] theorem writeSlot_discard (i : Nat) (h : Handle) (s : State) :
    (writeSlot i h s).discard = s.discard := rfl
@[simp] theorem writeSlot_mem (i : Nat) (h : Handle) (s : State) :
    (writeSlot i h s).mem = s.mem := rfl
@[simp] theorem writeSlot_log (i : Nat) (h : Handle) (s : State) :
    (writeSlot i h s).log = s.log := rfl
@[simp] theorem writeSlot_active (i : Nat) (h : Handle) (s : State) :
    (writeSlot i h s).active = s.active := rfl
@[simp] theorem writeSlot_portP (i : Nat) (h : Handle) (s : State) :
    (writeSlot i h s).portP = s.portP := rfl
@[simp] theorem writeSlot_portQ (i : Nat) (h : Handle) (s : State) :
    (writeSlot i h s).portQ = s.portQ := rfl
@[simp] theorem writeSlot_portK (i : Nat) (h : Handle) (s : State) :
    (writeSlot i h s).portK = s.portK := rfl
@[simp] theorem writeSlot_env (i : Nat) (h : Handle) (s : State) :
    (writeSlot i h s).env = s.env := rfl

/-! ### enqueued -/

@[simp] theorem enqueued_cap (h : Handle) (s : State) :
    (enqueued h s).cap = s.cap := rfl
@[simp] theorem enqueued_mode (h : Handle) (s : State) :
    (enqueued h s).mode = s.mode := rfl
@[simp] theorem enqueued_head (h : Handle) (s : State) :
    (enqueued h s).head = nextIndex s.cap s.head := rfl
@[simp] theorem enqueued_tail (h : Handle) (s : State) :
    (enqueued h s).tail = s.tail := rfl
@[simp] theorem enqueued_size (h : Handle) (s : State) :
    (enqueued h s).size = sizeUp s.cap s.size := rfl
@[simp] theorem enqueued_status (h : Handle) (s : State) :
    (enqueued h s).status = statusAfterPut s.cap (sizeUp s.cap s.size) (nextIndex s.cap s.head) s.tail := rfl
@[simp] theorem enqueued_slots (h : Handle) (s : State) :
    (enqueued h s).slots = s.slots.set s.head h := rfl
@[simp] theorem enqueued_cnt (h : Handle) (s : State) :
    (enqueued h s).cnt = s.cnt := rfl
@[simp] theorem enqueued_total (h : Handle) (s : State) :
    (enqueued h s).total = s.total := rfl
@[simp] theorem enqueued_len (h : Handle) (s : State) :
    (enqueued h s).len = s.len := rfl
@[simp] theorem enqueued_wmod (h : Handle) (s : State) :
    (enqueued h s).wmod = s.wmod := rfl
@[simp] theorem enqueued_wfun (h : Handle) (s : State) :
    (enqueued h s).wfun = s.wfun := rfl
@[simp] theorem enqueued_wh (h : Handle) (s : State) :
    (enqueued h s).wh = s.wh := rfl
@[simp] theorem enqueued_discard (h : Handle) (s : State) :
    (enqueued h s).discard = s.discard := rfl
@[simp] theorem enqueued_mem (h : Handle) (s : State) :
    (enqueued h s).mem = s.mem := rfl
@[simp] theorem enqueued_log (h : Handle) (s : State) :
    (enqueued h s).log = s.log := rfl
@[simp] theorem enqueued_active (h : Handle) (s : State) :
    (enqueued h s).active = s.active := rfl
@[simp] theorem enqueued_portP (h : Handle) (s : State) :
    (enqueued h s).portP = s.portP := rfl
@[simp] theorem enqueued_portQ (h : Handle) (s : State) :
    (enqueued h s).portQ = s.portQ := rfl
@[simp] theorem enqueued_portK (h : Handle) (s : State) :
    (enqueued h s).portK = s.portK := rfl
@[simp] theorem enqueued_env (h : Handle) (s : State) :
    (enqueued h s).env = s.env := rfl

/-! ### dequeued -/

@[simp] theorem dequeued_cap (s : State) :
    (dequeued s).cap = s.cap := rfl
@[simp] theorem dequeued_mode (s : State) :
    (dequeued s).mode = s.mode := rfl
@[simp] theorem dequeued_head (s : State) :
    (dequeued s).head = s.head := rfl
@[simp] theorem dequeued_tail (s : State) :
    (dequeued s).tail = nextIndex s.cap s.tail := rfl
@[simp] theorem dequeued_size (s : State) :
    (dequeued s).size = sizeDown s.cap s.size := rfl
@[simp] theorem dequeued_status (s : State) :
    (dequeued s).status = statusAfterGet (sizeDown s.cap s.size) := rfl
@[simp] theorem dequeued_slots (s : State) :
    (dequeued s).slots = s.slots.set s.tail 0x0000#16 := rfl
@[simp] theorem dequeued_cnt (s : State) :
    (dequeued s).cnt = s.cnt := rfl
@[simp] theorem dequeued_total (s : State) :
    (dequeued s).total = s.total := rfl
@[simp] theorem dequeued_len (s : State) :
    (dequeued s).len = s.len := rfl
@[simp] theorem dequeued_wmod (s : State) :
    (dequeued s).wmod = s.wmod := rfl
@[simp] theorem dequeued_wfun (s : State) :
    (dequeued s).wfun = s.wfun := rfl
@[simp] theorem dequeued_wh (s : State) :
    (dequeued s).wh = s.wh := rfl
@[simp] theorem dequeued_discard (s : State) :
    (dequeued s).discard = s.discard := rfl
@[simp] theorem dequeued_mem (s : State) :
    (dequeued s).mem = s.mem := rfl
@[simp] theorem dequeued_log (s : State) :
    (dequeued s).log = s.log := rfl
@[simp] theorem dequeued_active (s : State) :
    (dequeued s).active = s.active := rfl
@[simp] theorem dequeued_portP (s : State) :
    (dequeued s).portP = s.portP := rfl
@[simp] theorem dequeued_portQ (s : State) :
    (dequeued s).portQ = s.portQ := rfl
@[simp] theorem dequeued_portK (s : State) :
    (dequeued s).portK = s.portK := rfl
@[simp] theorem dequeued_env (s : State) :
    (dequeued s).env = s.env := rfl

/-! ### countByte -/

@[simp] theorem countByte_cap (s : State) :
    (countByte s).cap = s.cap := rfl
@[simp] theorem countByte_mode (s : State) :
    (countByte s).mode = s.mode := rfl
@[simp] theorem countByte_head (s : State) :
    (countByte s).head = s.head := rfl
@[simp] theorem countByte_tail (s : State) :
    (countByte s).tail = s.tail := rfl
@[simp] theorem countByte_size (s : State) :
    (countByte s).size = s.size := rfl
@[simp] theorem countByte_status (s : State) :
    (countByte s).status = s.status := rfl
@[simp] theorem countByte_slots (s : State) :
    (countByte s).slots = s.slots := rfl
@[simp] theorem countByte_cnt (s : State) :
    (countByte s).cnt = s.cnt + 1#17 := rfl
@[simp] theorem countByte_total (s : State) :
    (countByte s).total = s.total := rfl
@[simp] theorem countByte_len (s : State) :
    (countByte s).len = s.len := rfl
@[simp] theorem countByte_wmod (s : State) :
    (countByte s).wmod = s.wmod := rfl
@[simp] theorem countByte_wfun (s : State) :
    (countByte s).wfun = s.wfun := rfl
@[simp] theorem countByte_wh (s : State) :
    (countByte s).wh = s.wh := rfl
@[simp] theorem countByte_discard (s : State) :
    (countByte s).discard = s.discard := rfl
@[simp] theorem countByte_mem (s : State) :
    (countByte s).mem = s.mem := rfl
@[simp] theorem countByte_log (s : State) :
    (countByte s).log = s.log := rfl
@[simp] theorem countByte_active (s : State) :
    (countByte s).active = s.active := rfl
@[simp] theorem countByte_portP (s : State) :
    (countByte s).portP = s.portP := rfl
@[simp] theorem countByte_portQ (s : State) :
    (countByte s).portQ = s.portQ := rfl
@[simp] theorem countByte_portK (s : State) :
    (countByte s).portK = s.portK := rfl
@[simp] theorem countByte_env (s : State) :
    (countByte s).env = s.env := rfl

@[simp] theorem logEvent_port (c : Code) (s : State) (d : Port) : (logEvent c s).port d = s.port d := by
  cases d <;> rfl

@[simp] theorem bumpTick_port (s : State) (d : Port) : (bumpTick s).port d = s.port d := by
  cases d <;> rfl

@[simp] theorem decoderReset_port (s : State) (d : Port) : (decoderReset s).port d = s.port d := by
  cases d <;> rfl

@[simp] theorem constructed_port (s : State) (d : Port) : (constructed s).port d = s.port d := by
  cases d <;> rfl

@[simp] theorem enqueued_port (h : Handle) (s : State) (d : Port) : (enqueued h s).port d = s.port d := by
  cases d <;> rfl

@[simp] theorem dequeued_port (s : State) (d : Port) : (dequeued s).port d = s.port d := by
  cases d <;> rfl

@[simp] theorem countByte_port (s : State) (d : Port) : (countByte s).port d = s.port d := by
  cases d <;> rfl

end Sys2Proof.Machine
end

