-- ==== Sys2Proof/Laws/Ops.lean ====
section
/-! SUPPORT. One lemma per shared operation that says everything it can do, for callers to cite instead of unfolding the
operation. -/

namespace Sys2Proof.Machine

/-! ## Requests and responses -/

/-- R51's list of operations per port and R53's list of ports per operation agree. -/
theorem accepts_eq_wellFormedOn (c : Port) (i : Instr) : accepts c i = i.wellFormedOn c := by
  cases c <;> cases i <;> rfl

theorem transact_serving {i : Instr} {s : State} (body : State → State) (h : Serving i s) :
    transact i s body = .next (body s) := by
  rw [transact, h.1]
  simp [accepts_eq_wellFormedOn, h.2]

theorem transact_misrouted {i : Instr} {s : State} (body : State → State) (run : s.mode = .run)
    (h : i.wellFormedOn s.active = false) : transact i s body = .next (raise .invalidArgument s) := by
  rw [transact, run]
  simp [accepts_eq_wellFormedOn, h]

theorem transact_off {i : Instr} {s : State} (body : State → State) (off : s.mode = .off)
    (h : ¬(i = .reset ∧ s.active = .control)) : transact i s body = .fault .noStepWhileOff := by
  rw [transact, off]
  simp [h]

theorem transact_off_reset {s : State} (body : State → State) (off : s.mode = .off) (h : s.active = .control) :
    transact .reset s body = .next (body s) := by
  rw [transact, off]
  simp [h]

/-- Everything a transaction that answers a next state can be. -/
theorem transact_next {i : Instr} {s t : State} {body : State → State} (h : transact i s body = .next t) :
    (Serving i s ∧ t = body s) ∨ (s.mode = .off ∧ i = .reset ∧ s.active = .control ∧ t = body s) ∨
    (s.mode = .run ∧ i.wellFormedOn s.active = false ∧ t = raise .invalidArgument s) := by
  unfold transact at h
  split at h
  · next hm =>
    split at h
    · next hc => cases h; exact .inr (.inl ⟨hm, hc.1, hc.2, rfl⟩)
    · cases h
  · next hm =>
    rw [accepts_eq_wellFormedOn] at h
    split at h
    · next hc => cases h; exact .inl ⟨⟨hm, hc⟩, rfl⟩
    · next hc => cases h; exact .inr (.inr ⟨hm, by simpa using hc, rfl⟩)

/-- A response is the word RESULT, STAT, DATA on the port in service (R56). -/
theorem respond_eq_answer (r : Code) (v : Handle) (s : State) :
    respond r v s = answer (r.num ++ statOf s ++ v) s := rfl

theorem statOf_run {s : State} (run : s.mode = .run) : statOf s = s.status := by
  rw [statOf, run]

theorem statOf_off {s : State} (off : s.mode = .off) : statOf s = 0x00#8 := by
  rw [statOf, off]

/-! ## The environment's choices -/

theorem drawAlloc_shape (s : State) : ∃ e, (drawAlloc s).2 = { s with env := e } := by
  unfold drawAlloc
  split <;> exact ⟨_, rfl⟩

theorem drawBuild_shape (s : State) : ∃ e, (drawBuild s).2 = { s with env := e } := by
  unfold drawBuild
  split <;> exact ⟨_, rfl⟩

/-- The draw of a port uses up that choice, and no allocation's or construction's. -/
theorem drawServe_shape (s : State) :
    ∃ serves tick, (drawServe s).2 = { s with env := { s.env with serves := serves, tick := tick } } := by
  unfold drawServe
  split <;> exact ⟨_, _, rfl⟩

theorem drawAlloc_scripted {s : State} {c : Option Handle} {rest : List (Option Handle)}
    (h : s.env.allocs = c :: rest) :
    drawAlloc s = (c, { s with env := { s.env with allocs := rest } }) := by
  unfold drawAlloc
  split
  · next h' => rw [h] at h'; cases h'; rfl
  · next h' => rw [h] at h'; cases h'

theorem drawBuild_scripted {s : State} {c : Bool} {rest : List Bool} (h : s.env.builds = c :: rest) :
    drawBuild s = (c, { s with env := { s.env with builds := rest } }) := by
  unfold drawBuild
  split
  · next h' => rw [h] at h'; cases h'; rfl
  · next h' => rw [h] at h'; cases h'

theorem drawServe_scripted {s : State} {c : Port} {rest : List Port} (h : s.env.serves = c :: rest) :
    drawServe s = (c, { s with env := { s.env with serves := rest } }) := by
  unfold drawServe
  split
  · next h' => rw [h] at h'; cases h'; rfl
  · next h' => rw [h] at h'; cases h'

/-! ## The Pool -/

/-- Everything PoolAlloc can do (R78): fail and change no LIVE or REC, or make a handle live that was neither null nor
live, with a fresh record. -/
theorem poolAlloc_cases (n : Len) (s : State) :
    (∃ e, poolAlloc n s = (none, { s with env := e })) ∨
    ∃ h e k, h ≠ 0x0000#16 ∧ Memory.live s.mem h.toNat = false ∧
      poolAlloc n s = (some h, { s with env := e, mem := Memory.insert s.mem h.toNat (freshRecord k n) }) := by
  obtain ⟨e, he⟩ := drawAlloc_shape s
  unfold poolAlloc
  split
  · next s1 hd => rw [hd] at he; exact .inl ⟨e, by rw [← he]⟩
  · next w s1 hd =>
    rw [hd] at he
    subst he
    split
    · exact .inl ⟨e, rfl⟩
    · next h hp =>
      have := pickHandle_free hp
      exact .inr ⟨h, _, _, this.1, this.2, rfl⟩

/-- An allocation whose draw fails (R78). -/
theorem poolAlloc_drawn_failure {n : Len} {s : State} {rest : List (Option Handle)} (h : s.env.allocs = none :: rest) :
    poolAlloc n s = (none, { s with env := { s.env with allocs := rest } }) := by
  rw [poolAlloc, drawAlloc_scripted h]

/-- An allocation whose draw is a free handle takes that handle (R78). -/
theorem poolAlloc_drawn {n : Len} {s : State} {w : Handle} {rest : List (Option Handle)}
    (h : s.env.allocs = some w :: rest) (ne : w ≠ 0x0000#16) (free : Memory.live s.mem w.toNat = false) :
    poolAlloc n s =
      (some w, { s with
        env := { s.env with allocs := rest, tick := s.env.tick + 1 }
        mem := Memory.insert s.mem w.toNat (freshRecord s.env.tick n) }) := by
  rw [poolAlloc, drawAlloc_scripted h]
  simp only
  rw [pickHandle_self ne free]
  rfl

@[simp] theorem freshRecord_dlen (k : Nat) (n : Len) : (freshRecord k n).dlen = n := rfl

@[simp] theorem freshRecord_pay_length (k : Nat) (n : Len) : (freshRecord k n).pay.length = n.toNat := by
  simp [freshRecord]

theorem Memory.live_eq_false {m : Memory} {h : Nat} : Memory.live m h = false ↔ Memory.find m h = none := by
  simp [Memory.live]

/-- PoolFree of a null or not-live handle does nothing (R79). -/
theorem poolFree_warning {h : Handle} {s : State} (c : h = 0x0000#16 ∨ Memory.live s.mem h.toNat = false) :
    poolFree h s = (.doubleFreeWarning, s) := by
  rw [poolFree, if_pos c]

/-- PoolFree of a live handle (R79). -/
theorem poolFree_live {h : Handle} {s : State} (ne : h ≠ 0x0000#16) (live : Memory.live s.mem h.toNat = true) :
    poolFree h s = (.ok, { s with mem := Memory.erase s.mem h.toNat }) := by
  rw [poolFree, if_neg]
  simp [ne, live]

/-- Everything PoolFree of a non-null handle can do to the state: that handle is not live afterwards, and nothing else
changes (R79). -/
theorem poolFree_shape {h : Handle} (ne : h ≠ 0x0000#16) (s : State) :
    ∃ m, (poolFree h s).2 = { s with mem := m } ∧
      (∀ g, Memory.find m g = if g = h.toNat then none else Memory.find s.mem g) ∧
      (Memory.wf s.mem = true → Memory.wf m = true) := by
  by_cases live : Memory.live s.mem h.toNat = true
  · rw [poolFree_live ne live]
    exact ⟨_, rfl, fun g => Memory.find_erase _ _ _, Memory.wf_erase _⟩
  · have free := Bool.eq_false_iff.2 live
    rw [poolFree_warning (.inr free)]
    refine ⟨s.mem, rfl, fun g => ?_, id⟩
    split
    · next hg => rw [hg]; exact Memory.live_eq_false.1 free
    · rfl

/-- Everything MemWrite can do: no handle but `h` is touched, no record's length changes, none becomes or ceases to be
live, and the canonical form stays. -/
theorem memWrite_shape (h : Handle) (i : Nat) (b : Byte) (s : State) :
    ∃ m e, memWrite h i b s = { s with mem := m, env := e } ∧
      (∀ g, g ≠ h.toNat → Memory.find m g = Memory.find s.mem g) ∧
      (∀ g, (Memory.find m g).map Record.dlen = (Memory.find s.mem g).map Record.dlen) ∧
      (Memory.wf s.mem = true → Memory.wf m = true) := by
  unfold memWrite
  split
  · exact ⟨s.mem, s.env, rfl, fun _ _ => rfl, fun _ => rfl, id⟩
  · next r hr =>
    have key : ∀ r', r'.dlen = r.dlen → r'.pay.length = r.pay.length →
        (∀ g, g ≠ h.toNat → Memory.find (Memory.insert s.mem h.toNat r') g = Memory.find s.mem g) ∧
        (∀ g, (Memory.find (Memory.insert s.mem h.toNat r') g).map Record.dlen
          = (Memory.find s.mem g).map Record.dlen) ∧
        (Memory.wf s.mem = true → Memory.wf (Memory.insert s.mem h.toNat r') = true) := by
      intro r' hd hl
      refine ⟨fun g ne => Memory.find_insert_other _ _ ne, fun g => ?_, fun wf => ?_⟩
      · rw [Memory.find_insert]
        split
        · next e => subst e; rw [hr]; simp [hd]
        · rfl
      · obtain ⟨pos, lt, len⟩ := Memory.wf_find wf hr
        exact Memory.wf_insert wf pos lt (by rw [hl, hd, len])
    split
    · exact ⟨_, _, rfl, key _ rfl (by simp)⟩
    · exact ⟨_, _, rfl, key _ rfl (by simp [strayRecord])⟩

/-- Everything an owner's write can do: no handle but `h` is touched, no record's length changes, and the canonical form
stays. -/
theorem ownerWrites_shape (h : Handle) (m f : Byte) (pay : List Byte) (s : State) :
    ∃ mem, ownerWrites h m f pay s = { s with mem := mem } ∧
      (∀ g, g ≠ h.toNat → Memory.find mem g = Memory.find s.mem g) ∧
      (∀ g, (Memory.find mem g).map Record.dlen = (Memory.find s.mem g).map Record.dlen) ∧
      (Memory.wf s.mem = true → Memory.wf mem = true) := by
  unfold ownerWrites
  split
  · exact ⟨s.mem, rfl, fun _ _ => rfl, fun _ => rfl, id⟩
  · next r hr =>
    split
    · next hl =>
      refine ⟨_, rfl, fun g ne => Memory.find_insert_other _ _ ne, fun g => ?_, fun wf => ?_⟩
      · rw [Memory.find_insert]
        split
        · next e => subst e; rw [hr]; rfl
        · rfl
      · obtain ⟨pos, lt, len⟩ := Memory.wf_find wf hr
        exact Memory.wf_insert wf pos lt (hl.trans len)
    · exact ⟨s.mem, rfl, fun _ _ => rfl, fun _ => rfl, id⟩

/-- A write inside a live record's payload changes that one byte (R69). -/
theorem memWrite_inside {h : Handle} {i : Nat} {s : State} {r : Record} (b : Byte)
    (hr : Memory.find s.mem h.toNat = some r) (lt : i < r.pay.length) :
    memWrite h i b s = { s with mem := Memory.insert s.mem h.toNat { r with pay := r.pay.set i b } } := by
  rw [memWrite, hr]
  simp [lt]

/-- A byte that exists is what MemRead reads. -/
theorem memRead_inside {h : Handle} {i : Nat} {s : State} {r : Record} (hr : Memory.find s.mem h.toNat = some r)
    (lt : i < r.pay.length) : memRead h i s = r.pay[i] := by
  simp [memRead, Memory.byte, hr, lt]

/-! ## The queue -/

theorem readSlot_inside {i : Nat} {s : State} (lt : i < s.slots.length) : readSlot i s = s.slots[i] := by
  simp [readSlot, lt]

/-- On which STATUS values an Enqueue is refused, and how (R86). -/
theorem putFailure_eq_none (st : Byte) : putFailure st = none ↔ st = 0x00#8 ∨ st = 0x01#8 := by
  unfold putFailure statusFull statusEmpty statusPartial
  split
  · next h => subst h; decide
  · split <;> simp_all

theorem putFailure_ne_ok {st : Byte} {c : Code} (h : putFailure st = some c) : c = .queueFull ∨ c = .queueInvalid := by
  unfold putFailure at h
  split at h
  · cases h; exact .inl rfl
  · split at h <;> cases h
    exact .inr rfl

theorem enqueue_refused {h : Handle} {s : State} {c : Code} (hc : putFailure s.status = some c) :
    enqueue h s = (c, s) := by
  rw [enqueue, hc]

theorem enqueue_stored {h : Handle} {s : State} (hc : putFailure s.status = none) :
    enqueue h s = (.ok, enqueued h s) := by
  rw [enqueue, hc]

/-! ## What a failed construction leaves -/

@[simp] theorem halted_cap (s : State) : (halted s).cap = s.cap := rfl
@[simp] theorem halted_mode (s : State) : (halted s).mode = .off := rfl
@[simp] theorem halted_log (s : State) : (halted s).log = s.log := rfl
@[simp] theorem halted_active (s : State) : (halted s).active = s.active := rfl
@[simp] theorem halted_port (s : State) (d : Port) : (halted s).port d = s.port d := by cases d <;> rfl
@[simp] theorem halted_wf (s : State) : Memory.wf (halted s).mem = true := Memory.wf_unspecified _

end Sys2Proof.Machine
end

