-- ==== Sys2Proof/Laws/Answer.lean ====
section
/-! SUPPORT. One lemma per field for the two states claims are stated with: the one that answers a request (`answer`) and
the one in which a request is in service (`inService`). -/

namespace Sys2Proof.Machine

/-! ### answer -/

@[simp] theorem answer_cap (w : Word) (s : State) :
    (answer w s).cap = s.cap := by simp [answer]
@[simp] theorem answer_mode (w : Word) (s : State) :
    (answer w s).mode = s.mode := by simp [answer]
@[simp] theorem answer_head (w : Word) (s : State) :
    (answer w s).head = s.head := by simp [answer]
@[simp] theorem answer_tail (w : Word) (s : State) :
    (answer w s).tail = s.tail := by simp [answer]
@[simp] theorem answer_size (w : Word) (s : State) :
    (answer w s).size = s.size := by simp [answer]
@[simp] theorem answer_status (w : Word) (s : State) :
    (answer w s).status = s.status := by simp [answer]
@[simp] theorem answer_slots (w : Word) (s : State) :
    (answer w s).slots = s.slots := by simp [answer]
@[simp] theorem answer_cnt (w : Word) (s : State) :
    (answer w s).cnt = s.cnt := by simp [answer]
@[simp] theorem answer_total (w : Word) (s : State) :
    (answer w s).total = s.total := by simp [answer]
@[simp] theorem answer_len (w : Word) (s : State) :
    (answer w s).len = s.len := by simp [answer]
@[simp] theorem answer_wmod (w : Word) (s : State) :
    (answer w s).wmod = s.wmod := by simp [answer]
@[simp] theorem answer_wfun (w : Word) (s : State) :
    (answer w s).wfun = s.wfun := by simp [answer]
@[simp] theorem answer_wh (w : Word) (s : State) :
    (answer w s).wh = s.wh := by simp [answer]
@[simp] theorem answer_discard (w : Word) (s : State) :
    (answer w s).discard = s.discard := by simp [answer]
@[simp] theorem answer_mem (w : Word) (s : State) :
    (answer w s).mem = s.mem := by simp [answer]
@[simp] theorem answer_log (w : Word) (s : State) :
    (answer w s).log = s.log := by simp [answer]
@[simp] theorem answer_active (w : Word) (s : State) :
    (answer w s).active = s.active := by simp [answer]
@[simp] theorem answer_env (w : Word) (s : State) :
    (answer w s).env = s.env := by simp [answer]

theorem answer_port_self (w : Word) (s : State) :
    (answer w s).port s.active = { s.port s.active with rsp := some w } := by
  simp [answer]

/-- The response is the word that was answered. -/
@[simp] theorem answer_rsp (w : Word) (s : State) : ((answer w s).port s.active).rsp = some w := by
  rw [answer_port_self]

theorem answer_port_other (w : Word) (s : State) {d : Port} (h : d ≠ s.active) :
    (answer w s).port d = s.port d :=
  State.setPort_port_other s _ h

@[simp] theorem answer_port_reqs (w : Word) (s : State) (d : Port) :
    ((answer w s).port d).reqs = (s.port d).reqs := by
  simp [answer]

/-- In RUN a response is an answer with STATUS in STAT (R56). -/
theorem respond_run {s : State} (run : s.mode = .run) (r : Code) (v : Handle) :
    respond r v s = answer (r.num ++ s.status ++ v) s := by
  rw [respond_eq_answer, statOf_run run]

/-! ### inService -/

@[simp] theorem inService_cap (p : Port) (rest : List Word) (s : State) :
    (inService p rest s).cap = s.cap := by simp [inService]
@[simp] theorem inService_mode (p : Port) (rest : List Word) (s : State) :
    (inService p rest s).mode = s.mode := by simp [inService]
@[simp] theorem inService_head (p : Port) (rest : List Word) (s : State) :
    (inService p rest s).head = s.head := by simp [inService]
@[simp] theorem inService_tail (p : Port) (rest : List Word) (s : State) :
    (inService p rest s).tail = s.tail := by simp [inService]
@[simp] theorem inService_size (p : Port) (rest : List Word) (s : State) :
    (inService p rest s).size = s.size := by simp [inService]
@[simp] theorem inService_status (p : Port) (rest : List Word) (s : State) :
    (inService p rest s).status = s.status := by simp [inService]
@[simp] theorem inService_slots (p : Port) (rest : List Word) (s : State) :
    (inService p rest s).slots = s.slots := by simp [inService]
@[simp] theorem inService_cnt (p : Port) (rest : List Word) (s : State) :
    (inService p rest s).cnt = s.cnt := by simp [inService]
@[simp] theorem inService_total (p : Port) (rest : List Word) (s : State) :
    (inService p rest s).total = s.total := by simp [inService]
@[simp] theorem inService_len (p : Port) (rest : List Word) (s : State) :
    (inService p rest s).len = s.len := by simp [inService]
@[simp] theorem inService_wmod (p : Port) (rest : List Word) (s : State) :
    (inService p rest s).wmod = s.wmod := by simp [inService]
@[simp] theorem inService_wfun (p : Port) (rest : List Word) (s : State) :
    (inService p rest s).wfun = s.wfun := by simp [inService]
@[simp] theorem inService_wh (p : Port) (rest : List Word) (s : State) :
    (inService p rest s).wh = s.wh := by simp [inService]
@[simp] theorem inService_discard (p : Port) (rest : List Word) (s : State) :
    (inService p rest s).discard = s.discard := by simp [inService]
@[simp] theorem inService_mem (p : Port) (rest : List Word) (s : State) :
    (inService p rest s).mem = s.mem := by simp [inService]
@[simp] theorem inService_log (p : Port) (rest : List Word) (s : State) :
    (inService p rest s).log = s.log := by simp [inService]
@[simp] theorem inService_active (p : Port) (rest : List Word) (s : State) :
    (inService p rest s).active = p := rfl
@[simp] theorem inService_env (p : Port) (rest : List Word) (s : State) :
    (inService p rest s).env = s.env := by simp [inService]

@[simp] theorem inService_port_self (p : Port) (rest : List Word) (s : State) :
    (inService p rest s).port p = { s.port p with reqs := rest } := by
  cases p <;> rfl

theorem inService_port_other (p : Port) (rest : List Word) (s : State) {d : Port} (h : d ≠ p) :
    (inService p rest s).port d = s.port d := by
  cases p <;> cases d <;> first | exact absurd rfl h | rfl

end Sys2Proof.Machine
end

