-- ==== Sys2Proof/Laws/Queue.lean ====
section
/-! SUPPORT. The slot ring: the widths of its counters, what an Enqueue and a GET do to its invariant and to its
contents. -/

namespace Sys2Proof.Machine

theorem lt_two_pow_bitLength (n : Nat) : n < 2 ^ bitLength n := by
  unfold bitLength
  split
  · next h => subst h; decide
  · exact Nat.lt_log2_self

theorem two_pow_le_of_bitLength {n : Nat} (pos : 0 < n) : 2 ^ (bitLength n - 1) ≤ n := by
  unfold bitLength
  rw [if_neg (by omega), Nat.add_sub_cancel]
  exact Nat.log2_self_le (by omega)

/-- SIZE counts up to C without wrapping (R21). -/
theorem sizeUp_of_lt {cap size : Nat} (lt : size < cap) : sizeUp cap size = size + 1 :=
  Nat.mod_eq_of_lt (lt_of_le_of_lt lt (lt_two_pow_bitLength cap))

/-- SIZE counts down to 0 without wrapping (R21). -/
theorem sizeDown_of_pos {cap size : Nat} (pos : 0 < size) (le : size ≤ cap) : sizeDown cap size = size - 1 := by
  have lt : cap < 2 ^ sizeWidth cap := lt_two_pow_bitLength cap
  rw [sizeDown, show size + (2 ^ sizeWidth cap - 1) = (size - 1) + 2 ^ sizeWidth cap by omega, Nat.add_mod_right]
  exact Nat.mod_eq_of_lt (by omega)

/-- On a state that meets the queue invariant STATUS is 0x00 or 0x01 exactly where there is room (R29 item 4). -/
theorem QueueInv.room_iff {s : State} (inv : QueueInv s) :
    (s.status = 0x00#8 ∨ s.status = 0x01#8) ↔ s.size < s.cap := by
  obtain ⟨pos, -, -, -, le, -, st, -⟩ := inv
  rw [st]
  split
  · simp; omega
  · split
    · simp; omega
    · simp; omega

/-- STATUS is EMPTY exactly where SIZE is 0 (R29 item 4). -/
theorem QueueInv.empty_iff {s : State} (inv : QueueInv s) : s.status = 0x00#8 ↔ s.size = 0 := by
  obtain ⟨-, -, -, -, -, -, st, -⟩ := inv
  rw [st]
  split
  · simpa
  · split <;> simpa

/-- HEAD is SIZE slots past TAIL (R29 item 3). -/
theorem QueueInv.head_eq {s : State} (inv : QueueInv s) : s.head = (s.tail + s.size) % s.cap := by
  obtain ⟨pos, -, lh, lt, le, con, -, -⟩ := inv
  by_cases h : s.tail ≤ s.head
  · rw [show s.head + s.cap - s.tail = (s.head - s.tail) + s.cap by omega, Nat.add_mod_right,
      Nat.mod_eq_of_lt (a := s.head - s.tail) (by omega)] at con
    rw [Nat.add_mod, con, Nat.mod_eq_of_lt lt, show s.tail + (s.head - s.tail) = s.head by omega,
      Nat.mod_eq_of_lt lh]
  · rw [Nat.mod_eq_of_lt (a := s.head + s.cap - s.tail) (by omega)] at con
    rw [Nat.add_mod, con, Nat.mod_eq_of_lt lt, show s.tail + (s.head + s.cap - s.tail) = s.head + s.cap by omega,
      Nat.add_mod_right, Nat.mod_eq_of_lt lh]

/-- Two slots counted from TAIL are the same slot only where the counts are the same. -/
theorem ring_index_inj {cap tail a b : Nat} (la : a < cap) (lb : b < cap)
    (h : (tail + a) % cap = (tail + b) % cap) : a = b := by
  have := Nat.ModEq.add_left_cancel' tail (show (tail + a) ≡ (tail + b) [MOD cap] from h)
  rwa [Nat.ModEq, Nat.mod_eq_of_lt la, Nat.mod_eq_of_lt lb] at this

theorem succ_mod_sub {cap h t : Nat} (lt : t < cap) :
    ((h + 1) % cap + cap - t) % cap = ((h + cap - t) % cap + 1) % cap := by
  rw [show (h + 1) % cap + cap - t = (h + 1) % cap + (cap - t) by omega, Nat.mod_add_mod, Nat.mod_add_mod,
    show h + 1 + (cap - t) = h + cap - t + 1 by omega]

/-- An Enqueue of a non-null handle where there is room keeps the queue invariant. -/
theorem QueueInv.enqueued {s : State} (inv : QueueInv s) {h : Handle} (ne : h ≠ 0x0000#16) (room : s.size < s.cap) :
    QueueInv (enqueued h s) := by
  have he := inv.head_eq
  obtain ⟨pos, len, lh, lt, le, con, st, occ⟩ := inv
  have up := sizeUp_of_lt room
  have conn : (s.size + 1) % s.cap = ((s.head + 1) % s.cap + s.cap - s.tail) % s.cap := by
    rw [succ_mod_sub lt, ← con, Nat.mod_add_mod]
  have wrap : (s.head + 1) % s.cap = s.tail → s.size + 1 = s.cap := by
    intro hw
    rw [hw, show s.tail + s.cap - s.tail = s.cap by omega, Nat.mod_self] at conn
    have := Nat.le_of_dvd (by omega) (Nat.dvd_of_mod_eq_zero conn)
    omega
  refine ⟨pos, by simpa using len, Nat.mod_lt _ pos, lt, by simp [up]; omega, ?_, ?_, ?_⟩
  · simpa [up, nextIndex] using conn
  · simp only [enqueued_status, enqueued_size, enqueued_cap, up, statusAfterPut, statusFull, statusPartial, nextIndex]
    rw [if_neg (c := s.size + 1 = 0) (by omega)]
    by_cases hf : s.size + 1 = s.cap
    · simp [hf]
    · rw [if_neg (by intro h; exact hf (h.elim id wrap)), if_neg hf]
  · intro k hk
    simp only [enqueued_cap] at hk
    simp only [enqueued_slots, enqueued_tail, enqueued_cap, enqueued_size, up]
    by_cases hks : k = s.size
    · subst hks
      rw [← he, List.getElem?_set_self (by omega)]
      simp [ne]
    · rw [List.getElem?_set_ne, occ k hk]
      · omega
      · rw [he]
        intro h
        exact hks (ring_index_inj hk room h.symm)

/-- A GET where there is a handle keeps the queue invariant. -/
theorem QueueInv.dequeued {s : State} (inv : QueueInv s) (some : 0 < s.size) : QueueInv (dequeued s) := by
  obtain ⟨pos, len, lh, lt, le, con, st, occ⟩ := inv
  have down := sizeDown_of_pos some le
  have pt : (s.tail + 1) % s.cap < s.cap := Nat.mod_lt _ pos
  refine ⟨pos, by simpa using len, lh, Nat.mod_lt _ pos, by simp [down]; omega, ?_, ?_, ?_⟩
  · simp only [dequeued_size, dequeued_cap, dequeued_head, dequeued_tail, down, nextIndex]
    by_cases hw : s.tail + 1 < s.cap
    · rw [Nat.mod_eq_of_lt hw]
      by_cases hle : s.tail < s.head
      · rw [show s.head + s.cap - (s.tail + 1) = (s.head - (s.tail + 1)) + s.cap by omega, Nat.add_mod_right,
          Nat.mod_eq_of_lt (a := s.head - (s.tail + 1)) (by omega)]
        rw [show s.head + s.cap - s.tail = (s.head - s.tail) + s.cap by omega, Nat.add_mod_right,
          Nat.mod_eq_of_lt (a := s.head - s.tail) (by omega)] at con
        rcases Nat.lt_or_ge s.size s.cap with h | h
        · rw [Nat.mod_eq_of_lt h] at con; rw [Nat.mod_eq_of_lt (by omega)]; omega
        · rw [show s.size = s.cap by omega, Nat.mod_self] at con; omega
      · rw [Nat.mod_eq_of_lt (a := s.head + s.cap - (s.tail + 1)) (by omega)]
        rcases Nat.lt_or_ge s.head s.tail with h | h
        · rw [Nat.mod_eq_of_lt (a := s.head + s.cap - s.tail) (by omega)] at con
          rcases Nat.lt_or_ge s.size s.cap with h' | h'
          · rw [Nat.mod_eq_of_lt h'] at con; rw [Nat.mod_eq_of_lt (by omega)]; omega
          · rw [show s.size = s.cap by omega, Nat.mod_self] at con; omega
        · rw [show s.head + s.cap - s.tail = s.cap by omega, Nat.mod_self] at con
          have := Nat.le_of_dvd some (Nat.dvd_of_mod_eq_zero con)
          rw [Nat.mod_eq_of_lt (by omega)]; omega
    · rw [show s.tail + 1 = s.cap by omega, Nat.mod_self, Nat.sub_zero, Nat.add_mod_right, Nat.mod_eq_of_lt lh]
      rcases Nat.lt_or_ge s.size s.cap with h | h
      · rw [Nat.mod_eq_of_lt h] at con; rw [Nat.mod_eq_of_lt (by omega)]
        rcases Nat.lt_or_ge s.head s.tail with h' | h'
        · rw [Nat.mod_eq_of_lt (by omega)] at con; omega
        · rw [show s.head + s.cap - s.tail = s.cap by omega, Nat.mod_self] at con; omega
      · rw [show s.size = s.cap by omega, Nat.mod_self] at con
        rw [Nat.mod_eq_of_lt (by omega)]
        rcases Nat.lt_or_ge s.head s.tail with h' | h'
        · rw [Nat.mod_eq_of_lt (by omega)] at con; omega
        · omega
  · simp only [dequeued_status, dequeued_size, dequeued_cap, down, statusAfterGet, statusEmpty, statusPartial]
    split
    · rfl
    · rw [if_neg (by omega)]
  · intro k hk
    simp only [dequeued_cap] at hk
    simp only [dequeued_slots, dequeued_tail, dequeued_cap, dequeued_size, down, nextIndex, Nat.mod_add_mod]
    by_cases hkl : k + 1 = s.cap
    · rw [show s.tail + 1 + k = s.tail + s.cap by omega, Nat.add_mod_right, Nat.mod_eq_of_lt lt,
        List.getElem?_set_self (by omega)]
      simp; omega
    · rw [show s.tail + 1 + k = s.tail + (k + 1) by omega, List.getElem?_set_ne, occ (k + 1) (by omega)]
      · omega
      · intro h
        have := ring_index_inj (tail := s.tail) (a := 0) (b := k + 1) pos (by omega)
          (by rw [Nat.add_zero, Nat.mod_eq_of_lt lt]; exact h)
        omega

/-- Where there is a handle, the slot at TAIL holds one that is not null (R29 item 5). -/
theorem QueueInv.tail_slot {s : State} (inv : QueueInv s) (some : 0 < s.size) :
    ∃ h, s.slots[s.tail]? = Option.some h ∧ h ≠ 0x0000#16 := by
  obtain ⟨pos, len, lh, lt, le, con, st, occ⟩ := inv
  have := (occ 0 pos).2 some
  rw [Nat.add_zero, Nat.mod_eq_of_lt lt] at this
  have inb : s.tail < s.slots.length := by omega
  rw [List.getElem?_eq_getElem inb] at this ⊢
  exact ⟨_, rfl, fun h => this (by rw [h])⟩

/-- The queue invariant is about the queue's registers and slots only. -/
theorem QueueInv.congr {s t : State} (inv : QueueInv s) (cap : t.cap = s.cap) (same : SameQueue s t) :
    QueueInv t := by
  obtain ⟨h1, h2, h3, h4, h5⟩ := same
  unfold QueueInv at inv ⊢
  rw [cap, h1, h2, h3, h4, h5]
  exact inv

/-- The contents are a matter of the queue's registers and slots only. -/
theorem queueContents_congr {s t : State} (inv : QueueInv s) (cap : t.cap = s.cap) (same : SameQueue s t) :
    queueContents t = queueContents s := by
  obtain ⟨h1, h2, h3, h4, h5⟩ := same
  unfold queueContents
  rw [h3, h2, cap]
  apply List.map_congr_left
  intro k _
  have lt : (s.tail + k) % s.cap < s.slots.length := by rw [inv.2.1]; exact Nat.mod_lt _ inv.1
  rw [readSlot_inside lt, readSlot_inside (by rw [h5]; exact lt)]
  simp only [h5]

/-- An Enqueue appends to the queue's contents (R94). -/
theorem queueContents_enqueued {s : State} (inv : QueueInv s) (h : Handle) (room : s.size < s.cap) :
    queueContents (enqueued h s) = queueContents s ++ [h] := by
  have he := inv.head_eq
  obtain ⟨pos, len, lh, lt, le, con, st, occ⟩ := inv
  simp only [queueContents, enqueued_size, sizeUp_of_lt room, enqueued_tail, enqueued_cap, List.range_succ,
    List.map_append, List.map_cons, List.map_nil]
  congr 1
  · apply List.map_congr_left
    intro k hk
    have hk' := List.mem_range.1 hk
    simp only [readSlot, enqueued_slots, enqueued_env]
    rw [List.getElem?_set_ne]
    rw [he]
    intro h
    have := ring_index_inj (show s.size < s.cap from room) (by omega) h
    omega
  · simp only [readSlot, enqueued_slots, enqueued_env]
    rw [← he, List.getElem?_set_self (by omega)]
    rfl

/-- A GET takes the first of the queue's contents (R94). -/
theorem queueContents_dequeued {s : State} (inv : QueueInv s) (some : 0 < s.size) :
    queueContents s = readSlot s.tail s :: queueContents (dequeued s) := by
  obtain ⟨pos, len, lh, lt, le, con, st, occ⟩ := inv
  have down := sizeDown_of_pos some le
  obtain ⟨n, hn⟩ : ∃ n, s.size = n + 1 := ⟨s.size - 1, by omega⟩
  simp only [queueContents, dequeued_size, down, dequeued_tail, dequeued_cap, nextIndex, Nat.mod_add_mod]
  rw [hn, List.range_succ_eq_map, List.map_cons, List.map_map, Nat.add_sub_cancel, Nat.add_zero, Nat.mod_eq_of_lt lt]
  congr 1
  apply List.map_congr_left
  intro k hk
  have hk' := List.mem_range.1 hk
  simp only [Function.comp, readSlot, dequeued_slots, dequeued_env, Nat.succ_eq_add_one]
  rw [show s.tail + 1 + k = s.tail + (k + 1) by omega, List.getElem?_set_ne]
  intro h
  have := ring_index_inj (tail := s.tail) (a := 0) (b := k + 1) pos (by omega)
    (by rw [Nat.add_zero, Nat.mod_eq_of_lt lt]; exact h)
  omega

/-- A construction leaves a queue that meets the invariant (R120). -/
theorem constructed_queueInv {s : State} (pos : 0 < s.cap) : QueueInv (constructed s) := by
  refine ⟨pos, by simp, pos, pos, by simp, by simp, by simp, ?_⟩
  intro k hk
  simp only [constructed_cap, constructed_size, constructed_tail, constructed_slots] at *
  rw [List.getElem?_replicate, if_pos (Nat.mod_lt _ pos)]
  simp

end Sys2Proof.Machine
end

