-- ==== Sys2Proof/Laws/Decoder.lean ====
section
/-! SUPPORT. The frame decoder: everything a byte and Finalize can do, said once. -/

namespace Sys2Proof.Machine

/-- Only the decoder's registers, the record store, the log and the environment's choices differ. -/
abbrev SameButDecoder (s t : State) : Prop :=
  t = { s with cnt := t.cnt, total := t.total, len := t.len, wmod := t.wmod, wfun := t.wfun, wh := t.wh,
               discard := t.discard, mem := t.mem, log := t.log, env := t.env }

/-! ## Finalize -/

/-- The release of the working buffer: its handle is not live afterwards, and nothing else changes (R71). -/
theorem releaseWorking_shape (s : State) :
    ∃ m, releaseWorking s = { s with mem := m } ∧
      (∀ g, Memory.find m g = if s.wh ≠ 0x0000#16 ∧ g = s.wh.toNat then none else Memory.find s.mem g) ∧
      (Memory.wf s.mem = true → Memory.wf m = true) := by
  unfold releaseWorking
  split
  · next h => exact ⟨s.mem, rfl, fun g => by simp [h], id⟩
  · next h =>
    obtain ⟨m, hm, hfind, hwf⟩ := poolFree_shape h s
    exact ⟨m, hm, fun g => by simp [hfind, h], hwf⟩

/-- The record Finalize fills in for the new Command (R71). -/
def commandRecord (s : State) : Record where
  modId := s.wmod
  funId := s.wfun
  dlen := s.len
  pay := (List.range s.len.toNat).map fun i => memRead s.wh i s

theorem fillCommand_eq (f : Handle) (s : State) :
    fillCommand f s = { s with
      mem := Memory.insert s.mem f.toNat (commandRecord s)
      env := { s.env with tick := s.env.tick + 1 } } := rfl

theorem commandRecord_pay_length (s : State) : (commandRecord s).pay.length = (commandRecord s).dlen.toNat := by
  simp [commandRecord]

theorem handle_pos {h : Handle} (ne : h ≠ 0x0000#16) : 0 < h.toNat := by
  have : h.toNat ≠ 0 := fun e => ne (BitVec.eq_of_toNat_eq e)
  omega

/-- The last part of Finalize: the Command is enqueued, or it is released and the loss is logged (R71). -/
theorem offerCommand_cases (f : Handle) (s : State) :
    (putFailure s.status = none ∧ offerCommand f s = (.ok, f, enqueued f s)) ∨
    ∃ c, putFailure s.status = some c ∧ offerCommand f s = (c, 0x0000#16, logEvent c (poolFree f s).2) := by
  unfold offerCommand
  cases hp : putFailure s.status with
  | none => rw [enqueue_stored hp]; exact .inl ⟨rfl, rfl⟩
  | some c =>
    rw [enqueue_refused hp]
    refine .inr ⟨c, rfl, ?_⟩
    rcases putFailure_ne_ok hp with rfl | rfl <;> rfl

/-- Everything Finalize can do (R71): an abandoned frame ends; or the Command's allocation fails; or the Command is
enqueued; or PUT fails. In the last three the working buffer is released, of the records that were live before only the
working buffer's changes, and a handle that becomes live is the Command that is enqueued, whose record holds the ids and
the length. -/
theorem finalize_cases (s : State) :
    (s.discard = true ∧ finalize s = (.ok, 0x0000#16, decoderReset s)) ∨
    (s.discard = false ∧ ∃ m e,
      (∀ g, Memory.live s.mem g = true → g ≠ s.wh.toNat → Memory.find m g = Memory.find s.mem g) ∧
      (s.wh ≠ 0x0000#16 → Memory.find m s.wh.toNat = none) ∧
      (∀ g, Memory.live s.mem g = false → Memory.live m g = true →
        (finalize s).1 = .ok ∧ g = (finalize s).2.1.toNat) ∧
      (Memory.wf s.mem = true → Memory.wf m = true) ∧
      (finalize s = (.allocationError, 0x0000#16,
          logEvent .allocationError (decoderReset { s with mem := m, env := e })) ∨
       (∃ f, f ≠ 0x0000#16 ∧ Memory.live s.mem f.toNat = false ∧
          (f ≠ s.wh → ∃ r, Memory.find m f.toNat = some r ∧ r.modId = s.wmod ∧ r.funId = s.wfun ∧ r.dlen = s.len) ∧
          putFailure s.status = none ∧ finalize s = (.ok, f, enqueued f (decoderReset { s with mem := m, env := e }))) ∨
       ∃ c, putFailure s.status = some c ∧
          finalize s = (c, 0x0000#16, logEvent c (decoderReset { s with mem := m, env := e })))) := by
  unfold finalize
  by_cases hd : s.discard = true
  · rw [if_pos hd]
    exact .inl ⟨hd, rfl⟩
  · rw [if_neg hd]
    refine .inr ⟨by simpa using hd, ?_⟩
    rcases poolAlloc_cases s.len s with ⟨e, ha⟩ | ⟨f, e, k, hne, hfree, ha⟩
    · rw [ha]
      obtain ⟨m, hm, hfind, hwf⟩ := releaseWorking_shape { s with env := e }
      simp only at hfind hwf
      refine ⟨m, e, fun g _ hg => by rw [hfind, if_neg (fun h => hg h.2)],
        fun h => by rw [hfind, if_pos ⟨h, rfl⟩], fun g hg hl => ?_, hwf, .inl ?_⟩
      · rw [Memory.live, hfind] at hl
        split at hl
        · cases hl
        · rw [← Memory.live, hg] at hl; cases hl
      · simp only [hm]
    · rw [ha]
      simp only
      rw [fillCommand_eq]
      generalize hrec : commandRecord _ = r
      have hlen : r.pay.length = r.dlen.toNat := by rw [← hrec]; exact commandRecord_pay_length _
      have ids : r.modId = s.wmod ∧ r.funId = s.wfun ∧ r.dlen = s.len := by rw [← hrec]; exact ⟨rfl, rfl, rfl⟩
      simp only
      obtain ⟨m, hm, hfind, hwf⟩ := releaseWorking_shape { s with
        mem := Memory.insert (Memory.insert s.mem f.toNat (freshRecord k s.len)) f.toNat r
        env := { e with tick := e.tick + 1 } }
      simp only at hfind hwf
      rw [hm]
      have hne' : ∀ g, Memory.live s.mem g = true → g ≠ f.toNat := fun g hg h => by
        rw [h, hfree] at hg; cases hg
      have keep : ∀ g, Memory.live s.mem g = true → g ≠ s.wh.toNat → Memory.find m g = Memory.find s.mem g :=
        fun g hl hg => by
          rw [hfind, if_neg (fun h => hg h.2), Memory.find_insert_other _ _ (hne' g hl),
            Memory.find_insert_other _ _ (hne' g hl)]
      have wfm : Memory.wf s.mem = true → Memory.wf m = true := fun wf =>
        hwf (Memory.wf_insert (Memory.wf_insert wf (handle_pos hne) f.isLt (by simp)) (handle_pos hne) f.isLt hlen)
      have fresh : ∀ g, Memory.live s.mem g = false → Memory.live m g = true → g = f.toNat := fun g hg hl => by
        by_contra hne
        rw [Memory.live, hfind, Memory.find_insert_other _ _ hne, Memory.find_insert_other _ _ hne] at hl
        split at hl
        · cases hl
        · rw [← Memory.live, hg] at hl; cases hl
      have stored : f ≠ s.wh → Memory.find m f.toNat = some r := fun hw => by
        rw [hfind, if_neg (fun h => hw (BitVec.eq_of_toNat_eq h.2)), Memory.find_insert_self]
      have gone : s.wh ≠ 0x0000#16 → Memory.find m s.wh.toNat = none := fun h => by rw [hfind, if_pos ⟨h, rfl⟩]
      rcases offerCommand_cases f (decoderReset { s with mem := m, env := { e with tick := e.tick + 1 } }) with
        ⟨hp, ho⟩ | ⟨c, hp, ho⟩
      · rw [ho]
        exact ⟨m, { e with tick := e.tick + 1 }, keep, gone, fun g hg hl => ⟨rfl, fresh g hg hl⟩, wfm,
          .inr (.inl ⟨f, hne, hfree, fun hw => ⟨r, stored hw, ids⟩, hp, rfl⟩)⟩
      · obtain ⟨m', hm', hfind', hwf'⟩ :=
          poolFree_shape hne (decoderReset { s with mem := m, env := { e with tick := e.tick + 1 } })
        rw [hm'] at ho
        rw [ho]
        simp only [decoderReset_mem] at hfind' hwf'
        refine ⟨m', { e with tick := e.tick + 1 },
          fun g hl hg => by rw [hfind', if_neg (hne' g hl), keep g hl hg],
          fun h => by rw [hfind', gone h]; exact ite_self none, fun g hg hl => ?_, fun wf => hwf' (wfm wf),
          .inr (.inr ⟨c, hp, rfl⟩)⟩
        rw [Memory.live, hfind'] at hl
        split at hl
        · cases hl
        · next hgf => exact absurd (fresh g hg hl) hgf

/-- What the record store holds once the Command `f` is filled in and the working buffer, if there is one, is released:
`c` at `f`, nothing at WH, and what it held before elsewhere (R71). -/
theorem finalize_enqueued {s : State} {f : Handle} {rest : List (Option Handle)} (keep : s.discard = false)
    (ha : s.env.allocs = some f :: rest) (ne : f ≠ 0x0000#16) (free : Memory.live s.mem f.toNat = false)
    (room : putFailure s.status = none) (distinct : f.toNat ≠ s.wh.toNat) :
    ∃ m, finalize s = (.ok, f, enqueued f (decoderReset { s with
        mem := m, env := { s.env with allocs := rest, tick := s.env.tick + 1 + 1 } })) ∧
      ∀ g, Memory.find m g =
        if g = f.toNat then
          some (commandRecord { s with
            env := { s.env with allocs := rest, tick := s.env.tick + 1 }
            mem := Memory.insert s.mem f.toNat (freshRecord s.env.tick s.len) })
        else if s.wh ≠ 0x0000#16 ∧ g = s.wh.toNat then none
        else Memory.find s.mem g := by
  unfold finalize
  rw [if_neg (by simp [keep]), poolAlloc_drawn ha ne free]
  simp only
  rw [fillCommand_eq]
  generalize commandRecord _ = c
  obtain ⟨m, hm, hf, -⟩ := releaseWorking_shape { s with
    mem := Memory.insert (Memory.insert s.mem f.toNat (freshRecord s.env.tick s.len)) f.toNat c
    env := { s.env with allocs := rest, tick := s.env.tick + 1 + 1 } }
  simp only at hm hf ⊢
  rw [hm]
  rcases offerCommand_cases f (decoderReset { s with
    mem := m, env := { s.env with allocs := rest, tick := s.env.tick + 1 + 1 } }) with ⟨-, ho⟩ | ⟨c, hp, -⟩
  · refine ⟨m, ho, fun g => ?_⟩
    rw [hf]
    by_cases h1 : g = f.toNat
    · subst h1
      rw [if_neg (fun h => distinct h.2), if_pos rfl, Memory.find_insert_self]
    · rw [if_neg h1]
      split
      · rfl
      · rw [Memory.find_insert_other _ _ h1, Memory.find_insert_other _ _ h1]
  · rw [decoderReset_status] at hp
    rw [room] at hp
    cases hp

/-- The Command's record is the ids and the working record's payload (R71). -/
theorem commandRecord_of_working {s : State} {r : Record} (hr : Memory.find s.mem s.wh.toNat = some r)
    (len : r.pay.length = s.len.toNat) :
    commandRecord s = { modId := s.wmod, funId := s.wfun, dlen := s.len, pay := r.pay } := by
  simp only [commandRecord]
  congr 1
  apply List.ext_getElem
  · simp [len]
  · intro i h1 h2
    simp only [List.getElem_map, List.getElem_range]
    exact memRead_inside hr h2

/-! ## One byte -/

/-- Everything the start of a payload can do (R68, R74): the decoder holds a fresh buffer of LEN bytes, or it discards
and the failure is logged. -/
theorem startPayload_cases (s : State) :
    (∃ e, startPayload s = (.allocationError, logEvent .allocationError { s with
        total := extendTotal s.total s.len, wh := 0x0000#16, discard := true, env := e })) ∨
    ∃ h e k, h ≠ 0x0000#16 ∧ Memory.live s.mem h.toNat = false ∧
      startPayload s = (.ok, { s with
        total := extendTotal s.total s.len, wh := h, env := e
        mem := Memory.insert s.mem h.toNat (freshRecord k s.len) }) := by
  unfold startPayload
  rcases poolAlloc_cases s.len { s with total := extendTotal s.total s.len } with ⟨e, ha⟩ | ⟨h, e, k, hne, hfree, ha⟩
  · rw [ha]; exact .inl ⟨e, rfl⟩
  · rw [ha]; exact .inr ⟨h, e, k, hne, hfree, rfl⟩

/-- A payload starts with the handle that is drawn (R68). -/
theorem startPayload_drawn {s : State} {h : Handle} {rest : List (Option Handle)} (ha : s.env.allocs = some h :: rest)
    (ne : h ≠ 0x0000#16) (free : Memory.live s.mem h.toNat = false) :
    startPayload s = (.ok, { s with
      total := extendTotal s.total s.len, wh := h
      env := { s.env with allocs := rest, tick := s.env.tick + 1 }
      mem := Memory.insert s.mem h.toNat (freshRecord s.env.tick s.len) }) := by
  unfold startPayload
  rw [poolAlloc_drawn (s := { s with total := extendTotal s.total s.len }) ha ne free]

/-- A payload whose allocation is drawn to fail is discarded (R74). -/
theorem startPayload_drawn_failure {s : State} {rest : List (Option Handle)} (ha : s.env.allocs = none :: rest) :
    startPayload s = (.allocationError, logEvent .allocationError { s with
      total := extendTotal s.total s.len, wh := 0x0000#16, discard := true
      env := { s.env with allocs := rest } }) := by
  unfold startPayload
  rw [poolAlloc_drawn_failure (s := { s with total := extendTotal s.total s.len }) ha]

/-- A payload byte touches the record store and the choices only. -/
theorem takePayload_shape (b : Byte) (s : State) :
    ∃ m e, takePayload b s = { s with mem := m, env := e } ∧
      (∀ g, g ≠ s.wh.toNat → Memory.find m g = Memory.find s.mem g) ∧
      (∀ g, (Memory.find m g).map Record.dlen = (Memory.find s.mem g).map Record.dlen) ∧
      (Memory.wf s.mem = true → Memory.wf m = true) := by
  unfold takePayload
  split
  · exact ⟨s.mem, s.env, rfl, fun _ _ => rfl, fun _ => rfl, id⟩
  · exact memWrite_shape _ _ _ _

/-- A byte's own effect keeps everything but the decoder's state and what it owns. -/
theorem takeByte_shape (b : Byte) (s : State) :
    SameButDecoder s (takeByte b s).2 ∧ (Memory.wf s.mem = true → Memory.wf (takeByte b s).2.mem = true) := by
  unfold takeByte
  split
  · exact ⟨rfl, id⟩
  split
  · exact ⟨rfl, id⟩
  split
  · exact ⟨rfl, id⟩
  split
  · unfold takeLengthHigh
    simp only
    split
    · exact ⟨rfl, id⟩
    · rcases startPayload_cases { s with len := addLengthHigh s.len b } with ⟨e, h⟩ | ⟨w, e, k, hne, -, h⟩
      · rw [h]; exact ⟨rfl, id⟩
      · rw [h]; exact ⟨rfl, fun wf => Memory.wf_insert wf (handle_pos hne) w.isLt (by simp)⟩
  · obtain ⟨m, e, h, -, -, wf⟩ := takePayload_shape b s
    rw [h]
    exact ⟨rfl, wf⟩

/-- Everything RX_BYTE can do to what is not the decoder's: nothing, or a Command is enqueued (R65, R71). -/
theorem receive_shape (b : Byte) (s : State) :
    (Memory.wf s.mem = true → Memory.wf (receive b s).2.2.mem = true) ∧
    ((receive b s).1 = .ok ∨ (receive b s).1 = .allocationError ∨ (receive b s).1 = .queueFull ∨
      (receive b s).1 = .queueInvalid) ∧
    (SameButDecoder s (receive b s).2.2 ∨
     ∃ f s1, f ≠ 0x0000#16 ∧ putFailure s.status = none ∧ SameButDecoder s s1 ∧
       (receive b s).2.2 = enqueued f s1) := by
  obtain ⟨same, wf⟩ := takeByte_shape b s
  have codes : (takeByte b s).1 = .ok ∨ (takeByte b s).1 = .allocationError := by
    unfold takeByte takeLengthHigh
    split
    · exact .inl rfl
    split
    · exact .inl rfl
    split
    · exact .inl rfl
    split
    · simp only
      split
      · exact .inl rfl
      · rcases startPayload_cases { s with len := addLengthHigh s.len b } with ⟨e, h⟩ | ⟨w, e, k, -, -, h⟩
        · rw [h]; exact .inr rfl
        · rw [h]; exact .inl rfl
    · exact .inl rfl
  unfold receive
  generalize takeByte b s = p at same wf codes
  obtain ⟨r, s1⟩ := p
  simp only at same wf codes ⊢
  split
  · rcases finalize_cases (countByte s1) with ⟨-, h⟩ | ⟨-, m, e, -, -, -, wfm, h | ⟨f, hne, -, -, hp, h⟩ | ⟨c, hp, h⟩⟩
    · rw [h]
      exact ⟨wf, .inl rfl, .inl (by rw [same]; rfl)⟩
    · rw [h]
      exact ⟨fun w => wfm (wf w), .inr (.inl rfl), .inl (by rw [same]; rfl)⟩
    · rw [h]
      refine ⟨fun w => wfm (wf w), .inl rfl, .inr ⟨f, _, hne, ?_, ?_, rfl⟩⟩
      · rw [← hp, same]; rfl
      · rw [same]; rfl
    · rw [h]
      refine ⟨fun w => wfm (wf w), ?_, .inl (by rw [same]; rfl)⟩
      rcases putFailure_ne_ok hp with rfl | rfl
      · exact .inr (.inr (.inl rfl))
      · exact .inr (.inr (.inr rfl))
  · refine ⟨wf, codes.imp_right .inl, .inl ?_⟩
    rw [same]
    rfl

end Sys2Proof.Machine
end

