-- ==== Sys2Proof/Laws/Step.lean ====
section
/-! SUPPORT. Operations and steps: each operation's body behind the common checks, and everything a step can do. -/

namespace Sys2Proof.Machine

/-- What an operation does once its checks have passed. -/
def bodyOf : Instr → State → State
  | .nop => respond .ok 0x0000#16
  | .reset => resetBody
  | .rxByte b => rxByteBody b
  | .put h => putBody h
  | .get => getBody
  | .getStatus => getStatusBody
  | .alloc n => allocBody n
  | .dealloc h => deallocBody h

/-- Every operation is its body behind the checks of R105. -/
theorem exec_eq_transact (i : Instr) (s : State) : exec i s = transact i s (bodyOf i) := by
  cases i <;> rfl

theorem exec_serving {i : Instr} {s : State} (h : Serving i s) : exec i s = .next (bodyOf i s) := by
  rw [exec_eq_transact, transact_serving _ h]

/-- Everything an operation that answers a next state can be: served, a RESET in OFF, or turned away from a port that
does not accept it. -/
theorem exec_next {i : Instr} {s t : State} (h : exec i s = .next t) :
    (Serving i s ∧ t = bodyOf i s) ∨ (s.mode = .off ∧ i = .reset ∧ s.active = .control ∧ t = bodyOf i s) ∨
    (s.mode = .run ∧ i.wellFormedOn s.active = false ∧ t = raise .invalidArgument s) :=
  transact_next (by rwa [← exec_eq_transact])

/-- In RUN every operation answers a next state. -/
theorem exec_run {i : Instr} {s : State} (run : s.mode = .run) :
    exec i s = .next (bodyOf i s) ∨ exec i s = .next (raise .invalidArgument s) := by
  rw [exec_eq_transact]
  cases h : i.wellFormedOn s.active with
  | true => exact .inl (transact_serving _ ⟨run, h⟩)
  | false => exact .inr (transact_misrouted _ run h)

/-- An operation's body leaves every port alone but the one in service. -/
theorem bodyOf_port_other (i : Instr) (s : State) {d : Port} (h : d ≠ s.active) : (bodyOf i s).port d = s.port d := by
  cases i with
  | nop => exact respond_port_other _ _ _ h
  | getStatus => exact respond_port_other _ _ _ h
  | reset =>
    simp only [bodyOf, resetBody]
    obtain ⟨e, he⟩ := drawBuild_shape s
    generalize drawBuild s = p at he
    obtain ⟨built, s1⟩ := p
    simp only at he
    subst he
    cases built <;> rw [respond_port_other _ _ _ (by exact h)] <;> cases d <;> rfl
  | rxByte b =>
    simp only [bodyOf, rxByteBody]
    have shape := (receive_shape b s).2.2
    generalize receive b s = p at shape
    obtain ⟨r, v, s1⟩ := p
    simp only at shape ⊢
    rcases shape with h1 | ⟨f, s2, -, -, h1, h2⟩
    · rw [h1, respond_port_other _ _ _ (by exact h)]
      cases d <;> rfl
    · rw [h2, h1, respond_port_other _ _ _ (by exact h)]
      cases d <;> rfl
  | put x =>
    simp only [bodyOf, putBody]
    split
    · exact respond_port_other _ _ _ h
    · unfold enqueue
      split
      · exact respond_port_other _ _ _ h
      · rw [respond_port_other _ _ _ (by exact h)]
        cases d <;> rfl
  | get =>
    simp only [bodyOf, getBody]
    split
    · exact respond_port_other _ _ _ h
    · rw [respond_port_other _ _ _ (by exact h)]
      cases d <;> rfl
  | alloc n =>
    simp only [bodyOf, allocBody]
    rcases poolAlloc_cases n s with ⟨e, h1⟩ | ⟨_, e, k, -, -, h1⟩ <;> rw [h1] <;> simp only <;>
      rw [respond_port_other _ _ _ (by exact h)] <;> cases d <;> rfl
  | dealloc x =>
    simp only [bodyOf, deallocBody]
    unfold poolFree
    split
    · exact respond_port_other _ _ _ h
    · rw [respond_port_other _ _ _ (by exact h)]
      cases d <;> rfl

/-- In RUN a request word's transaction leaves every port alone but the one in service (R41, R51). -/
theorem runWord_port_other {w : Word} {s t : State} (run : s.mode = .run) (h : runWord w s = .next t) {d : Port}
    (hd : d ≠ s.active) : t.port d = s.port d := by
  unfold runWord at h
  split at h
  · next i _ =>
    rcases exec_run (i := i) run with e | e <;> rw [e] at h <;> cases h
    · exact bodyOf_port_other _ _ hd
    · exact respond_port_other _ _ _ hd
  · cases h
    exact respond_port_other _ _ _ hd

theorem pending_iff {s : State} {c : Port} : pending s c = true ↔ ∃ w rest, (s.port c).reqs = w :: rest := by
  unfold pending
  cases (s.port c).reqs <;> simp

theorem not_pending_iff {s : State} {c : Port} : pending s c = false ↔ (s.port c).reqs = [] := by
  unfold pending
  cases (s.port c).reqs <;> simp

theorem mem_servable {s : State} {c : Port} : c ∈ servable s ↔ hasStep s c = true := by
  unfold servable
  rw [List.mem_filter]
  cases c <;> simp

theorem fetch_of_reqs {c : Port} {s : State} {w : Word} {rest : List Word} (h : (s.port c).reqs = w :: rest) :
    fetch c s = some (w, inService c rest s) := by
  rw [fetch, h]
  rfl

theorem serve_of_reqs {c : Port} {s : State} {w : Word} {rest : List Word} (h : (s.port c).reqs = w :: rest) :
    serve c s = runWord w (inService c rest s) := by
  rw [serve, fetch_of_reqs h]

/-- A port that has a step has an outstanding request. -/
theorem hasStep_reqs {s : State} {c : Port} (h : hasStep s c = true) : ∃ w rest, (s.port c).reqs = w :: rest := by
  unfold hasStep at h
  split at h
  · exact pending_iff.1 h
  · simp only [Bool.and_eq_true, decide_eq_true_eq] at h
    cases hr : (s.port c).reqs with
    | nil => rw [hr] at h; simp at h
    | cons w rest => exact ⟨w, rest, rfl⟩

@[simp] theorem setEnv_port (s : State) (e : Env) (c : Port) : ({ s with env := e } : State).port c = s.port c := by
  cases c <;> rfl

/-- The choice among several ports is one of them, and uses up the environment's choice of a port only. -/
theorem chooseServe_spec (c : Port) (rest : List Port) (s : State) :
    (chooseServe c rest s).1 ∈ c :: rest ∧
      ∃ serves tick, (chooseServe c rest s).2 = { s with env := { s.env with serves := serves, tick := tick } } := by
  obtain ⟨serves, tick, he⟩ := drawServe_shape s
  unfold chooseServe
  generalize drawServe s = p at he
  obtain ⟨d, s1⟩ := p
  simp only at he ⊢
  split
  · next h => exact ⟨h, serves, tick, he⟩
  · exact ⟨List.mem_cons_self, serves, tick, he⟩

/-- Everything a step that answers a next state can be: idle, or one port's outstanding request is served. -/
theorem step_cases {s t : State} (h : step s = .next t) :
    ((∀ c, (s.port c).reqs = []) ∧ t = s) ∨
    ∃ c w rest serves tick, hasStep s c = true ∧ (s.port c).reqs = w :: rest ∧
      runWord w (inService c rest { s with env := { s.env with serves := serves, tick := tick } }) = .next t := by
  unfold step at h
  split at h
  · split at h
    · cases h
    · next hp =>
      cases h
      simp only [Bool.or_eq_true, not_or, Bool.not_eq_true, not_pending_iff] at hp
      exact .inl ⟨fun c => by cases c <;> simp [hp], rfl⟩
  · next c hc =>
    have hs : hasStep s c = true := mem_servable.1 (by rw [hc]; exact List.mem_cons_self)
    obtain ⟨w, rest, hr⟩ := hasStep_reqs hs
    rw [serve_of_reqs hr] at h
    exact .inr ⟨c, w, rest, s.env.serves, s.env.tick, hs, hr, h⟩
  · next c d rest hc =>
    obtain ⟨hm, serves, tick, he⟩ := chooseServe_spec c (d :: rest) s
    generalize chooseServe c (d :: rest) s = p at h hm he
    obtain ⟨c', s1⟩ := p
    simp only at h hm he
    subst he
    have hs : hasStep s c' = true := mem_servable.1 (by rw [hc]; exact hm)
    obtain ⟨w, rest', hr⟩ := hasStep_reqs hs
    rw [serve_of_reqs (by simpa using hr)] at h
    exact .inr ⟨c', w, rest', serves, tick, hs, hr, h⟩

/-- Where exactly one port has a step, that port is served. -/
theorem step_of_servable {s : State} {c : Port} {w : Word} {rest : List Word} (h : servable s = [c])
    (hr : (s.port c).reqs = w :: rest) : step s = runWord w (inService c rest s) := by
  unfold step
  rw [h]
  exact serve_of_reqs hr

/-- In RUN, one port alone having a request pending is what makes it the one that is served. -/
theorem servable_only {s : State} {c : Port} {w : Word} {rest : List Word} (run : s.mode = .run)
    (h : OnlyPending c w rest s) : servable s = [c] := by
  have hc : hasStep s c = true := by
    unfold hasStep
    rw [run]
    exact pending_iff.2 ⟨w, rest, h.1⟩
  have ho : ∀ d, d ≠ c → hasStep s d = false := fun d hd => by
    unfold hasStep
    rw [run]
    exact not_pending_iff.2 (h.2 d hd)
  unfold servable
  cases c
  · simp [hc, ho .consumer (by decide), ho .control (by decide)]
  · simp [hc, ho .producer (by decide), ho .control (by decide)]
  · simp [hc, ho .producer (by decide), ho .consumer (by decide)]

end Sys2Proof.Machine
end

