-- ==== Sys2Proof/Laws/Encoding.lean ====
section
/-! SUPPORT. The fields of request words and response words as numbers. -/

namespace Sys2Proof

/-- Three fields side by side, as a number. -/
theorem append3_toNat {a b c : Nat} (x : BitVec a) (y : BitVec b) (z : BitVec c) :
    (x ++ y ++ z).toNat = x.toNat * 2 ^ (b + c) + y.toNat * 2 ^ c + z.toNat := by
  simp only [BitVec.toNat_append]
  rw [← Nat.shiftLeft_add_eq_or_of_lt z.isLt, ← Nat.shiftLeft_add_eq_or_of_lt y.isLt]
  simp only [Nat.shiftLeft_eq]
  ring

theorem encode_toNat (i : Instr) : (encode i).toNat = (opNumber i).toNat * 2 ^ 28 + (argOf i).toNat := by
  have := append3_toNat (opNumber i) (0#12) (argOf i)
  simpa [encode] using this

theorem opField_toNat (w : Word) : (opField w).toNat = w.toNat / 2 ^ 28 := by
  have := w.isLt
  simp only [opField, BitVec.extractLsb'_toNat, Nat.shiftRight_eq_div_pow]
  omega

theorem rsvField_toNat (w : Word) : (rsvField w).toNat = w.toNat / 2 ^ 16 % 2 ^ 12 := by
  simp only [rsvField, BitVec.extractLsb'_toNat, Nat.shiftRight_eq_div_pow]

theorem argField_toNat (w : Word) : (argField w).toNat = w.toNat % 2 ^ 16 := by
  simp only [argField, BitVec.extractLsb'_toNat, Nat.shiftRight_eq_div_pow]
  omega

/-- A word is its three fields. -/
theorem word_eq_fields (w : Word) : w = opField w ++ rsvField w ++ argField w := by
  apply BitVec.eq_of_toNat_eq
  rw [append3_toNat, opField_toNat, rsvField_toNat, argField_toNat]
  have := w.isLt
  omega

/-- OP of an operation's word (R53). -/
@[simp] theorem opField_encode (i : Instr) : opField (encode i) = opNumber i := by
  have := (argOf i).isLt
  apply BitVec.eq_of_toNat_eq
  rw [opField_toNat, encode_toNat]
  omega

/-- RSV of an operation's word is zero (R52). -/
@[simp] theorem rsvField_encode (i : Instr) : rsvField (encode i) = 0#12 := by
  have := (argOf i).isLt
  apply BitVec.eq_of_toNat_eq
  rw [rsvField_toNat, encode_toNat]
  simp only [BitVec.toNat_ofNat]
  omega

/-- ARG of an operation's word (R54). -/
@[simp] theorem argField_encode (i : Instr) : argField (encode i) = argOf i := by
  have := (argOf i).isLt
  apply BitVec.eq_of_toNat_eq
  rw [argField_toNat, encode_toNat]
  omega

namespace Machine

theorem responseWord_toNat (c : Code) (st : Byte) (d : Handle) :
    (responseWord c st d).toNat = c.num.toNat * 2 ^ 24 + st.toNat * 2 ^ 16 + d.toNat :=
  append3_toNat c.num st d

/-- RESULT of a response word (R56). -/
@[simp] theorem resultField_responseWord (c : Code) (st : Byte) (d : Handle) :
    resultField (responseWord c st d) = c.num := by
  have := c.num.isLt
  have := st.isLt
  have := d.isLt
  apply BitVec.eq_of_toNat_eq
  simp only [resultField, BitVec.extractLsb'_toNat, Nat.shiftRight_eq_div_pow, responseWord_toNat]
  omega

/-- DATA of a response word (R56). -/
@[simp] theorem dataField_responseWord (c : Code) (st : Byte) (d : Handle) :
    dataField (responseWord c st d) = d := by
  have := d.isLt
  apply BitVec.eq_of_toNat_eq
  simp only [dataField, BitVec.extractLsb'_toNat, Nat.shiftRight_eq_div_pow, responseWord_toNat]
  omega

end Machine

end Sys2Proof
end

