-- ==== Sys2Proof/Laws/Frame.lean ====
section
/-! SUPPORT. What RX_BYTE does with each byte of a frame whose framing is intact, one lemma per kind of byte, and the
decoder invariants it keeps. -/

namespace Sys2Proof.Machine

theorem count_eq {a b : Count} (h : a.toNat = b.toNat) : a = b := BitVec.eq_of_toNat_eq h

/-- The framing invariant is about the decoder's registers only. -/
theorem FramingInv.congr {s t : State} (inv : FramingInv s) (same : SameDecoder s t) : FramingInv t := by
  obtain ⟨h1, h2, h3, -, -, h6, h7⟩ := same
  unfold FramingInv at inv ⊢
  rw [h1, h2, h3, h6, h7]
  exact inv

/-- CNT counts up without wrapping while it is below TOTAL (R75). -/
theorem FramingInv.cnt_succ {s : State} (inv : FramingInv s) : (s.cnt + 1#17).toNat = s.cnt.toNat + 1 := by
  have := inv.1
  have := s.total.isLt
  rw [BitVec.toNat_add]
  simp only [BitVec.toNat_ofNat]
  omega

/-- TOTAL = 4 + LEN has room in 17 bits (R75). -/
theorem extendTotal_four (n : Len) : (extendTotal 4#17 n).toNat = 4 + n.toNat := by
  have := n.isLt
  simp only [extendTotal, BitVec.toNat_add, BitVec.toNat_setWidth, BitVec.toNat_ofNat]
  omega

theorem payloadOffset_eq {c : Count} (ge : 4 ≤ c.toNat) : payloadOffset c = c.toNat - 4 := by
  have := c.isLt
  simp only [payloadOffset, BitVec.toNat_sub, BitVec.toNat_ofNat]
  omega

/-- Byte 0 (R66). -/
theorem receive_byte0 {s : State} (inv : FramingInv s) (b : Byte) (h : s.cnt = 0#17) :
    receive b s = (.ok, 0x0000#16, { s with wmod := b, cnt := 1#17 }) := by
  have ht := (inv.2.1 (by rw [h]; decide)).1
  simp [receive, takeByte, countByte, h, ht]

/-- Byte 1 (R66). -/
theorem receive_byte1 {s : State} (inv : FramingInv s) (b : Byte) (h : s.cnt = 1#17) :
    receive b s = (.ok, 0x0000#16, { s with wfun := b, cnt := 2#17 }) := by
  have ht := (inv.2.1 (by rw [h]; decide)).1
  simp [receive, takeByte, countByte, h, ht]

/-- Byte 2 (R67). -/
theorem receive_byte2 {s : State} (inv : FramingInv s) (b : Byte) (h : s.cnt = 2#17) :
    receive b s = (.ok, 0x0000#16, { s with len := b.setWidth 16, cnt := 3#17 }) := by
  have ht := (inv.2.1 (by rw [h]; decide)).1
  have hl := inv.2.2.1 (by rw [h]; decide)
  simp [receive, takeByte, countByte, addLengthLow, h, ht, hl]

/-- Byte 3 where the length is 0: the frame ends (R68, R72). -/
theorem receive_byte3_empty {s : State} (inv : FramingInv s) (b : Byte) (h : s.cnt = 3#17)
    (hn : addLengthHigh s.len b = 0#16) :
    receive b s = finalize { s with len := 0#16, cnt := 4#17 } := by
  have ht := (inv.2.1 (by rw [h]; decide)).1
  simp [receive, takeByte, takeLengthHigh, countByte, h, ht, hn]

/-- Byte 3 where the length is not 0: the payload starts, and the frame does not end (R68, R70). -/
theorem receive_byte3_payload {s : State} (inv : FramingInv s) (b : Byte) (h : s.cnt = 3#17)
    (hn : addLengthHigh s.len b ≠ 0#16) :
    receive b s =
      ((startPayload { s with len := addLengthHigh s.len b }).1, 0x0000#16,
        countByte (startPayload { s with len := addLengthHigh s.len b }).2) := by
  have ht := (inv.2.1 (by rw [h]; decide)).1
  have pos : (addLengthHigh s.len b).toNat ≠ 0 := fun e => hn (BitVec.eq_of_toNat_eq e)
  have hx := extendTotal_four (addLengthHigh s.len b)
  have hne : ∀ s1 : State, s1.cnt = 3#17 → s1.total = extendTotal 4#17 (addLengthHigh s.len b) →
      (countByte s1).cnt ≠ s1.total := by
    intro s1 h1 h2 e
    rw [countByte_cnt, h1, h2] at e
    have := congrArg BitVec.toNat e
    rw [hx] at this
    simp only [BitVec.toNat_add, BitVec.toNat_ofNat] at this
    omega
  have hb : takeByte b s = startPayload { s with len := addLengthHigh s.len b } := by
    simp [takeByte, takeLengthHigh, h, hn]
  unfold receive
  rw [hb]
  rcases startPayload_cases { s with len := addLengthHigh s.len b } with ⟨e, hs⟩ | ⟨w, e, k, -, -, hs⟩
  · rw [hs]
    simp only
    refine if_neg (hne _ ?_ ?_)
    · exact h
    · rw [← ht]; rfl
  · rw [hs]
    simp only
    refine if_neg (hne _ ?_ ?_)
    · exact h
    · rw [← ht]

theorem takeByte_payload {s : State} (b : Byte) (ge : 4 ≤ s.cnt.toNat) : takeByte b s = (.ok, takePayload b s) := by
  have h : ∀ n : Nat, n < 4 → s.cnt ≠ BitVec.ofNat 17 n := fun n hn e => by
    have := congrArg BitVec.toNat e
    simp only [BitVec.toNat_ofNat] at this
    omega
  simp [takeByte, h 0, h 1, h 2, h 3]

/-- A payload byte of a frame whose buffer is intact is byte CNT - 4 of record WH (R69). -/
theorem takePayload_stored {s : State} {r : Record} (inv : FramingInv s) (b : Byte) (ge : 4 ≤ s.cnt.toNat)
    (keep : s.discard = false) (wf : Memory.wf s.mem = true) (hr : Memory.find s.mem s.wh.toNat = some r)
    (len : r.dlen = s.len) :
    takePayload b s =
      { s with mem := Memory.insert s.mem s.wh.toNat { r with pay := r.pay.set (s.cnt.toNat - 4) b } } := by
  have wl := (Memory.wf_find wf hr).2.2
  have h4 := inv.2.2.2 ge
  have lt := inv.1
  have inside : s.cnt.toNat - 4 < r.pay.length := by rw [wl, len]; omega
  unfold takePayload
  rw [if_neg (by simp [keep]), payloadOffset_eq ge]
  exact memWrite_inside b hr inside

/-- Everything a payload byte past the header can do, whatever WH names: no record but WH's changes, WH's keeps its
length, and where the byte does not fall outside that record nothing of it changes but payload byte CNT - 4. -/
theorem takePayload_frame {s : State} (b : Byte) (ge : 4 ≤ s.cnt.toNat) :
    ∃ m k, takePayload b s = { s with mem := m, env := { s.env with tick := k } } ∧
      SameRecords (fun g => g ≠ s.wh.toNat) s { s with mem := m } ∧
      (Memory.find m s.wh.toNat).map (fun r => (r.dlen, r.pay.length)) =
        (Memory.find s.mem s.wh.toNat).map (fun r => (r.dlen, r.pay.length)) ∧
      ((s.discard = true ∨ ∀ r, Memory.find s.mem s.wh.toNat = some r → s.cnt.toNat - 4 < r.pay.length) →
        k = s.env.tick ∧
        (Memory.find m s.wh.toNat).map (fun r => (r.modId, r.funId)) =
          (Memory.find s.mem s.wh.toNat).map (fun r => (r.modId, r.funId)) ∧
        ∀ (g : Handle) (j : Nat), ¬(g = s.wh ∧ j = s.cnt.toNat - 4) → Memory.byte m g j = Memory.byte s.mem g j) := by
  unfold takePayload
  split
  · exact ⟨s.mem, s.env.tick, rfl, fun _ _ => rfl, rfl, fun _ => ⟨rfl, rfl, fun _ _ _ => rfl⟩⟩
  · next keep =>
    rw [payloadOffset_eq ge]
    unfold memWrite
    split
    · exact ⟨s.mem, s.env.tick, rfl, fun _ _ => rfl, rfl, fun _ => ⟨rfl, rfl, fun _ _ _ => rfl⟩⟩
    · next r hr =>
      split
      · refine ⟨_, s.env.tick, rfl, fun g hg => Memory.find_insert_other _ _ hg, ?_, fun _ => ⟨rfl, ?_, ?_⟩⟩
        · rw [Memory.find_insert_self, hr]
          simp
        · rw [Memory.find_insert_self, hr]
          simp
        · intro g j hj
          simp only [Memory.byte, Memory.find_insert]
          split
          · next hg =>
            obtain rfl : g = s.wh := BitVec.eq_of_toNat_eq hg
            have ne : s.cnt.toNat - 4 ≠ j := fun h => hj ⟨rfl, h.symm⟩
            rw [hr]
            simp [List.getElem?_set_ne ne]
          · rfl
      · next outside =>
        refine ⟨_, s.env.tick + 1, rfl, fun g hg => Memory.find_insert_other _ _ hg, ?_, fun h => ?_⟩
        · rw [Memory.find_insert_self, hr]
          simp [strayRecord]
        · rcases h with h | h
          · exact absurd h keep
          · exact absurd (h r hr) outside

/-- In discard mode a payload byte is dropped (R69). -/
theorem takePayload_dropped {s : State} (b : Byte) (drop : s.discard = true) : takePayload b s = s := by
  unfold takePayload
  rw [drop]
  rfl

/-- RX_BYTE answers what `receive` gives (R65). -/
theorem exec_rxByte {s s1 : State} {b : Byte} {r : Code} {v : Handle} (h : Serving (.rxByte b) s)
    (e : receive b s = (r, v, s1)) : exec (.rxByte b) s = .next (respond r v s1) := by
  rw [exec_serving h]
  simp only [bodyOf, rxByteBody, e]

/-- A payload byte that is not the frame's last (R69, R70). -/
theorem receive_payload {s : State} (inv : FramingInv s) (b : Byte) (ge : 4 ≤ s.cnt.toNat)
    (lt : s.cnt.toNat + 1 < s.total.toNat) :
    receive b s = (.ok, 0x0000#16, countByte (takePayload b s)) := by
  obtain ⟨m, e, h, -, -, -⟩ := takePayload_shape b s
  unfold receive
  rw [takeByte_payload b ge, h]
  simp only
  rw [if_neg]
  intro e
  have := congrArg BitVec.toNat e
  rw [countByte_cnt, inv.cnt_succ] at this
  exact absurd this (Nat.ne_of_lt lt)

/-- The frame's last payload byte (R70). -/
theorem receive_last {s : State} (inv : FramingInv s) (b : Byte) (ge : 4 ≤ s.cnt.toNat)
    (eq : s.cnt.toNat + 1 = s.total.toNat) :
    receive b s = finalize (countByte (takePayload b s)) := by
  obtain ⟨m, e, h, -, -, -⟩ := takePayload_shape b s
  unfold receive
  rw [takeByte_payload b ge, h]
  simp only
  rw [if_pos]
  exact count_eq (by rw [countByte_cnt]; exact inv.cnt_succ.trans eq)

/-- Finalize leaves the decoder in its initial configuration on every path (R73). -/
theorem finalize_idle (s : State) : DecoderIdle (finalize s).2.2 := by
  rcases finalize_cases s with ⟨-, h⟩ | ⟨-, m, e, -, -, -, -, h | ⟨f, -, -, -, -, h⟩ | ⟨c, -, h⟩⟩ <;>
    rw [h] <;> simp [DecoderIdle]

theorem DecoderIdle.framing {s : State} (h : DecoderIdle s) : FramingInv s := by
  obtain ⟨h1, h2, h3, -, -, h4, h5⟩ := h
  unfold FramingInv
  rw [h1, h2, h3, h4, h5]
  decide

theorem DecoderIdle.working {s : State} (h : DecoderIdle s) : WorkingInv s := by
  unfold WorkingInv
  rw [h.1]
  intro h
  simp at h

/-- A byte keeps the framing invariant (R30). -/
theorem FramingInv.receive {s : State} (inv : FramingInv s) (b : Byte) : FramingInv (receive b s).2.2 := by
  have lt := inv.1
  by_cases ge : 4 ≤ s.cnt.toNat
  · have h4 := inv.2.2.2 ge
    by_cases last : s.cnt.toNat + 1 = s.total.toNat
    · rw [receive_last inv b ge last]
      exact (finalize_idle _).framing
    · rw [receive_payload inv b ge (by omega)]
      obtain ⟨m, e, h, -, -, -⟩ := takePayload_shape b s
      rw [h]
      have := inv.cnt_succ
      refine ⟨?_, fun h => ?_, fun h => ?_, fun _ => h4⟩
      · rw [countByte_cnt]; simp only [countByte_total]; omega
      · rw [countByte_cnt] at h; simp only at h; omega
      · rw [countByte_cnt] at h; simp only at h; omega
  · have h3 := inv.2.1 (by omega)
    have cases : s.cnt = 0#17 ∨ s.cnt = 1#17 ∨ s.cnt = 2#17 ∨ s.cnt = 3#17 := by
      have : s.cnt.toNat = 0 ∨ s.cnt.toNat = 1 ∨ s.cnt.toNat = 2 ∨ s.cnt.toNat = 3 := by omega
      rcases this with h | h | h | h
      · exact .inl (count_eq h)
      · exact .inr (.inl (count_eq h))
      · exact .inr (.inr (.inl (count_eq h)))
      · exact .inr (.inr (.inr (count_eq h)))
    rcases cases with h | h | h | h
    · rw [receive_byte0 inv b h]
      have hl := inv.2.2.1 (by rw [h]; decide)
      simp [FramingInv, h3, hl]
    · rw [receive_byte1 inv b h]
      have hl := inv.2.2.1 (by rw [h]; decide)
      simp [FramingInv, h3, hl]
    · rw [receive_byte2 inv b h]
      simp [FramingInv, h3]
    · by_cases hn : addLengthHigh s.len b = 0#16
      · rw [receive_byte3_empty inv b h hn]
        exact (finalize_idle _).framing
      · rw [receive_byte3_payload inv b h hn]
        have pos : (addLengthHigh s.len b).toNat ≠ 0 := fun e => hn (BitVec.eq_of_toNat_eq e)
        have hx := extendTotal_four (addLengthHigh s.len b)
        have key : ∀ s1 : State, s1.cnt = 3#17 → s1.total = extendTotal 4#17 (addLengthHigh s.len b) →
            s1.len = addLengthHigh s.len b → FramingInv (countByte s1) := by
          intro s1 h1 h2 h3
          have hc : (countByte s1).cnt.toNat = 4 := by rw [countByte_cnt, h1]; rfl
          have ht : (countByte s1).total.toNat = 4 + (addLengthHigh s.len b).toNat := by rw [countByte_total, h2, hx]
          have hl : (countByte s1).len = addLengthHigh s.len b := by rw [countByte_len, h3]
          refine ⟨by omega, fun h => by omega, fun h => by omega, fun _ => ?_⟩
          rw [hl]
          omega
        rcases startPayload_cases { s with len := addLengthHigh s.len b } with ⟨e, hs⟩ | ⟨w, e, k, -, -, hs⟩
        · rw [hs]; exact key _ h (by rw [← h3.1]; rfl) rfl
        · rw [hs]; exact key _ h (by rw [← h3.1]) rfl

/-- A byte keeps the working buffer's part of the decoder invariant (R30 item 3). -/
theorem WorkingInv.receive {s : State} (work : WorkingInv s) (inv : FramingInv s) (b : Byte) :
    WorkingInv (receive b s).2.2 := by
  have lt := inv.1
  by_cases ge : 4 ≤ s.cnt.toNat
  · by_cases last : s.cnt.toNat + 1 = s.total.toNat
    · rw [receive_last inv b ge last]
      exact (finalize_idle _).working
    · rw [receive_payload inv b ge (by omega)]
      obtain ⟨m, e, h, -, hl, -⟩ := takePayload_shape b s
      rw [h]
      rintro -
      rcases work ge with ⟨h1, h2, h3⟩ | ⟨h1, h2⟩
      · exact .inl ⟨h1, h2, (hl _).trans h3⟩
      · exact .inr ⟨h1, h2⟩
  · by_cases h : s.cnt = 3#17
    · by_cases hn : addLengthHigh s.len b = 0#16
      · rw [receive_byte3_empty inv b h hn]
        exact (finalize_idle _).working
      · rw [receive_byte3_payload inv b h hn]
        have hd := (inv.2.1 (by omega)).2.2
        rintro -
        rcases startPayload_cases { s with len := addLengthHigh s.len b } with ⟨e, hs⟩ | ⟨w, e, k, hne, -, hs⟩
        · rw [hs]; exact .inr ⟨rfl, rfl⟩
        · rw [hs]; exact .inl ⟨hne, hd, by simp [Memory.find_insert_self]⟩
    · have h3 : s.cnt.toNat ≠ 3 := fun e => h (count_eq e)
      intro hc
      exfalso
      have cases : s.cnt = 0#17 ∨ s.cnt = 1#17 ∨ s.cnt = 2#17 := by
        have : s.cnt.toNat = 0 ∨ s.cnt.toNat = 1 ∨ s.cnt.toNat = 2 := by omega
        exact this.imp count_eq (·.imp count_eq count_eq)
      rcases cases with h | h | h
      · rw [receive_byte0 inv b h] at hc; simp at hc
      · rw [receive_byte1 inv b h] at hc; simp at hc
      · rw [receive_byte2 inv b h] at hc; simp at hc

end Sys2Proof.Machine
end

