-- ==== Sys2Proof/Laws/PerInstr.lean ====
section
/-! SUPPORT. The statement made once per operation: where its word holds its number and its operand. -/

namespace Sys2Proof.Laws.FieldsOf

/-- The word of `i` holds its operation number in OP, zero in RSV and its operand in ARG (R52 to R54). -/
def Statement (i : Instr) : Prop :=
  opField (encode i) = opNumber i ∧ rsvField (encode i) = 0#12 ∧ argField (encode i) = argOf i

/-- Every operation's word holds its three fields. -/
theorem all (i : Instr) : Statement i := ⟨opField_encode i, rsvField_encode i, argField_encode i⟩

theorem nop : Statement .nop := all _
theorem reset : Statement .reset := all _
theorem rxByte (b : Byte) : Statement (.rxByte b) := all _
theorem put (h : Handle) : Statement (.put h) := all _
theorem get : Statement .get := all _
theorem getStatus : Statement .getStatus := all _
theorem alloc (n : Len) : Statement (.alloc n) := all _
theorem dealloc (h : Handle) : Statement (.dealloc h) := all _

end Sys2Proof.Laws.FieldsOf
end

