-- ==== Sys2Proof/Tests/Slice0.lean ====
section
/-! SUPPORT. The model's own tests (expected values from spec/95_test_vectors.md and, where a comment names another rule,
from that rule), and for every statement with hypotheses a witness that meets them. -/

namespace Sys2Proof.Tests

open Machine

/-! ## Small states -/

/-- The state after RESET with capacity `c`, port `p` in service, and the allocation draws `allocs`. -/
def small (c : Nat) (p : Port) (allocs : List (Option Handle)) : State :=
  { State.reset with
    cap := c
    slots := List.replicate c 0x0000#16
    active := p
    env := { allocs := allocs, builds := [], serves := [], tick := 0 } }

/-- One request pending on port `p`. -/
def ask (p : Port) (w : Word) (s : State) : State := issue p w s

/-- The record of V-D1's working buffer. -/
def buffer : Record := { modId := 0x00#8, funId := 0x00#8, dlen := 2#16, pay := [0x00#8, 0x00#8] }

/-- V-D1 after its row 4: two payload bytes to come, handle 1 the working buffer. -/
def afterHeader : State :=
  { small 2 .producer [some 2#16] with
    cnt := 4#17, total := 6#17, len := 2#16, wmod := 0x07#8, wfun := 0x03#8, wh := 1#16, mem := [(1, buffer)] }

/-- V-D1 after its row 5: one payload byte to come. -/
def beforeLast : State :=
  { afterHeader with cnt := 5#17, mem := [(1, { buffer with pay := [0xAA#8, 0x00#8] })] }

/-- V-D8 after its byte 3: an abandoned frame of three payload bytes. -/
def abandoned : State :=
  { small 2 .producer [] with
    cnt := 4#17, total := 7#17, len := 3#16, wmod := 0x05#8, wfun := 0x06#8, wh := 0#16, discard := true }

/-- The state of 1.1 after step 4: C = 4 and full. -/
def fullOfFour : State :=
  { small 4 .consumer [] with
    slots := [1#16, 2#16, 3#16, 4#16], size := 4, status := 0x02#8 }

/-- A queue of C = 4 with one Command, at index 0. -/
def oneQueued : State :=
  { small 4 .consumer [] with slots := [1#16, 0#16, 0#16, 0#16], head := 1, size := 1, status := 0x01#8 }

/-- V-Q5's start: C = 4 with STATUS forced to 0x03. -/
def corrupted (p : Port) : State := { small 4 p [] with status := 0x03#8 }

/-- A block in OFF. -/
def offState : State := { small 2 .control [] with mode := .off }

/-- What holds of the next state, if there is one. -/
def next? (o : Host.Outcome State Fault Refusal) : Option State :=
  match o with
  | .next t => some t
  | .fault _ => none
  | .refused _ => none

/-- The response word on port `p` of the next state. -/
def response (p : Port) (o : Host.Outcome State Fault Refusal) : Option Word :=
  (next? o).bind fun t => (t.port p).rsp

/-! ## Well-formedness: on every port, a request that is ill formed there -/

theorem test_wellformed_producer :
    Instr.wellFormedOn .producer .reset = false ∧ Instr.wellFormedOn .producer .get = false ∧
    Instr.wellFormedOn .producer .getStatus = false ∧ Instr.wellFormedOn .producer (.rxByte 0x00#8) = true := by decide

theorem test_wellformed_consumer :
    Instr.wellFormedOn .consumer .reset = false ∧ Instr.wellFormedOn .consumer (.rxByte 0x05#8) = false ∧
    Instr.wellFormedOn .consumer (.put 1#16) = false ∧ Instr.wellFormedOn .consumer (.alloc 2#16) = false ∧
    Instr.wellFormedOn .consumer (.dealloc 1#16) = true := by decide

theorem test_wellformed_control :
    Instr.wellFormedOn .control (.dealloc 1#16) = false ∧ Instr.wellFormedOn .control (.alloc 2#16) = false ∧
    Instr.wellFormedOn .control .get = false ∧ Instr.wellFormedOn .control .reset = true := by decide

/-! ## Decoding: words written out from R52 to R54, OP RSV ARG -/

theorem test_decode_nop : decode 0b00000000000000000000000000000000#32 = .instr .nop := by decide
theorem test_decode_reset : decode 0b00010000000000000000000000000000#32 = .instr .reset := by decide
theorem test_decode_rx_byte : decode 0b00100000000000000000000010110001#32 = .instr (.rxByte 0xB1#8) := by decide
theorem test_decode_put : decode 0b00110000000000001000000000000001#32 = .instr (.put 0x8001#16) := by decide
theorem test_decode_get : decode 0b01000000000000000000000000000000#32 = .instr .get := by decide
theorem test_decode_get_status : decode 0b01010000000000000000000000000000#32 = .instr .getStatus := by decide
theorem test_decode_alloc : decode 0b01100000000000001111111111111110#32 = .instr (.alloc 0xFFFE#16) := by decide
theorem test_decode_dealloc : decode 0b01110000000000000100000000000010#32 = .instr (.dealloc 0x4002#16) := by decide

/-- V-E9 to V-E16: the words no port accepts. -/
theorem test_decode_illegal :
    decode 0x80000000#32 = .illegal .reservedOp ∧ decode 0xF0000000#32 = .illegal .reservedOp ∧
    decode 0x20010000#32 = .illegal .reservedBits ∧ decode 0x08000000#32 = .illegal .reservedBits ∧
    decode 0x00000001#32 = .illegal .argNotZero ∧ decode 0x20000107#32 = .illegal .argNotZero ∧
    decode 0x40000001#32 = .illegal .argNotZero ∧ decode 0x50000100#32 = .illegal .argNotZero ∧
    decode 0x10000001#32 = .illegal .argNotZero := by decide

/-- R62: the encoder's words. -/
theorem test_encode :
    encode .nop = 0x00000000#32 ∧ encode .reset = 0x10000000#32 ∧ encode (.rxByte 0xBB#8) = 0x200000BB#32 ∧
    encode (.put 0x1234#16) = 0x30001234#32 ∧ encode .get = 0x40000000#32 ∧ encode .getStatus = 0x50000000#32 ∧
    encode (.alloc 5#16) = 0x60000005#32 ∧ encode (.dealloc 0xFFFF#16) = 0x7000FFFF#32 := by decide

/-- R63: a frame's requests, for [0xAA, 0xBB] and for no payload. -/
theorem test_frame_requests :
    (frameRequests 0x07#8 0x03#8 [0xAA#8, 0xBB#8]).map encode =
      [0x20000007#32, 0x20000003#32, 0x20000002#32, 0x20000000#32, 0x200000AA#32, 0x200000BB#32] ∧
    (frameRequests 0x11#8 0x22#8 []).map encode =
      [0x20000011#32, 0x20000022#32, 0x20000000#32, 0x20000000#32] := by decide

theorem test_decode_table_word :
    decodeTableWord 32 0x30001234 = some (.put 0x1234#16) ∧ decodeTableWord 32 0x20000107 = none := by decide

/-- Section 2.7: response words and their classes. -/
theorem test_response_words :
    responseWord .ok 0x01#8 2#16 = 0x00010002#32 ∧ responseWord .full 0x02#8 0#16 = 0x03020000#32 ∧
    severityOfBits (resultField 0x82020000#32) = some .error ∧
    severityOfBits (resultField 0x40000000#32) = some .warning ∧
    severityOfBits (resultField 0xC0000000#32) = none ∧ statusField 0x84570000#32 = 0x57#8 := by decide

/-- R57: RESULT[7:6] of every code is its class. -/
theorem test_code_classes : ∀ c : Code, severityOfBits c.num = some c.severity := by
  intro c; cases c <;> rfl

/-! ## One step from State.reset for each row of the opcode table -/

theorem test_first_nop : response .producer (step (State.reset.withFetchWord 32 0x00000000)) = some 0x00000000#32 := by
  decide
theorem test_first_rx_byte :
    (next? (step (State.reset.withFetchWord 32 0x20000007))).map (fun t => (t.wmod, t.cnt)) = some (0x07#8, 1#17) := by
  decide
theorem test_first_get : response .consumer (step (State.reset.withFetchWord 32 0x40000000)) = some 0x83000000#32 := by
  decide
theorem test_first_get_status :
    response .consumer (step (State.reset.withFetchWord 32 0x50000000)) = some 0x01000000#32 := by decide
theorem test_first_dealloc :
    response .producer (step (State.reset.withFetchWord 32 0x70000000)) = some 0x40000000#32 := by decide
/-- RESET, PUT and ALLOC run as well: what they leave depends on a draw or on C. -/
theorem test_first_others :
    (next? (step (State.reset.withFetchWord 32 0x10000000))).isSome = true ∧
    (next? (step (State.reset.withFetchWord 32 0x30000001))).isSome = true ∧
    (next? (step (State.reset.withFetchWord 32 0x60000002))).isSome = true := ⟨rfl, rfl, rfl⟩

/-! ## NOP and RESET -/

/-- V-R4 on port K. -/
theorem test_nop : response .control (exec .nop (small 2 .control [])) = some 0x00000000#32 := by decide

/-- V-R3: a RESET in RUN with a Command queued and a frame in flight. -/
theorem test_reset_in_run :
    (next? (exec .reset { beforeLast with active := .control, env := { beforeLast.env with builds := [true] } })).map
      (fun t => (t.cnt, t.total, t.mem, t.portK.rsp)) = some (0#17, 4#17, [], some 0x00000000#32) := by decide

/-- V-R1: the construction fails; then RX has no step. -/
theorem test_reset_fails :
    (next? (exec .reset { offState with env := { offState.env with builds := [false] } })).map
      (fun t => (t.mode, t.portK.rsp)) = some (.off, some 0x80000000#32) := by rfl

/-- V-R1: a pending RX in OFF is stuck. -/
theorem test_off_is_stuck : step (ask .producer 0x20000001#32 offState) = .fault .noStepWhileOff := by rfl

/-- V-E17 and V-E21: GET and RESET on the producer port. -/
theorem test_wrong_port :
    response .producer (step (ask .producer 0x40000000#32 (small 2 .producer []))) = some 0x81000000#32 ∧
    response .producer (step (ask .producer 0x10000000#32 (small 2 .producer []))) = some 0x81000000#32 := by decide

/-- Section 2.6: either of two pending requests can be first. -/
theorem test_either_order :
    response .consumer (step { ask .producer 0x20000000#32 (ask .consumer 0x40000000#32 (small 1 .producer [])) with
      env := { allocs := [], builds := [], serves := [.consumer], tick := 0 } }) = some 0x83000000#32 ∧
    response .producer (step { ask .producer 0x20000000#32 (ask .consumer 0x40000000#32 (small 1 .producer [])) with
      env := { allocs := [], builds := [], serves := [.producer], tick := 0 } }) = some 0x00000000#32 := by decide

/-! ## PUT, GET and GET_STATUS -/

/-- 1.1 step 7: PUT into a wrapped queue with one free slot fills it. -/
theorem test_put_to_full :
    (next? (exec (.put 5#16) { small 4 .producer [] with
      slots := [0#16, 2#16, 3#16, 4#16], tail := 1, size := 3, status := 0x01#8 })).map
      (fun t => (t.head, t.size, t.slots, t.portP.rsp)) =
    some (1, 4, [5#16, 2#16, 3#16, 4#16], some 0x00020000#32) := by decide

/-- V-Q5: after the GET, PUT 9 is FULL by HEAD = TAIL with SIZE wrapped to 0. -/
theorem test_put_corrupted :
    (next? (exec (.put 9#16) { small 4 .producer [] with tail := 1, size := 7, status := 0x01#8 })).map
      (fun t => (t.size, t.status)) = some (0, 0x02#8) := by decide

/-- 1.1 step 6. -/
theorem test_get_from_full :
    (next? (exec .get fullOfFour)).map (fun t => (t.tail, t.size, t.slots, t.portQ.rsp)) =
      some (1, 3, [0#16, 2#16, 3#16, 4#16], some 0x00010001#32) := by decide

/-- V-Q5: GET on INVALID wraps SIZE to 7 and answers a null handle. -/
theorem test_get_corrupted :
    (next? (exec .get (corrupted .consumer))).map (fun t => (t.tail, t.size, t.status, t.portQ.rsp)) =
      some (1, 7, 0x01#8, some 0x00010000#32) := by decide

/-- V-Q6: an unrecognized STATUS. -/
theorem test_get_status_unrecognized :
    response .consumer (exec .getStatus { small 4 .consumer [] with status := 0x57#8 }) = some 0x84570000#32 := by decide

theorem test_get_status_full : response .consumer (exec .getStatus fullOfFour) = some 0x03020000#32 := by decide

/-! ## ALLOC and DEALLOC -/

/-- V-A8: handle 1 is handed out again while 2 and 3 are live. -/
theorem test_alloc_reuses :
    (next? (exec (.alloc 5#16) { small 2 .producer [some 1#16] with mem := [(2, buffer), (3, buffer)] })).map
      (fun t => (t.mem.map Prod.fst, t.portP.rsp)) = some ([1, 2, 3], some 0x00000001#32) := by decide

/-- R10: an allocation that is drawn to fail. -/
theorem test_alloc_fails :
    response .producer (exec (.alloc 5#16) (small 2 .producer [none])) = some 0x80000000#32 := by decide

/-- V-A9. -/
theorem test_dealloc :
    (next? (exec (.dealloc 1#16) { small 2 .consumer [] with
      mem := [(1, buffer), (2, buffer), (3, buffer)] })).map (fun t => (t.mem.map Prod.fst, t.portQ.rsp)) =
    some ([2, 3], some 0x00000000#32) := by decide

/-- V-A10. -/
theorem test_dealloc_twice :
    response .consumer (exec (.dealloc 1#16) { small 2 .consumer [] with mem := [(2, buffer)] }) =
      some 0x40000000#32 := by decide

/-! ## RX_BYTE -/

/-- V-D6: byte 3 of a frame of 65535 payload bytes makes TOTAL 65539; here its allocation is drawn to fail. -/
theorem test_rx_byte_length :
    (next? (exec (.rxByte 0xFF#8) { small 2 .producer [none] with cnt := 3#17, len := 0x00FF#16 })).map
      (fun t => (t.len, t.total, t.discard, t.portP.rsp)) =
    some (0xFFFF#16, 65539#17, true, some 0x80000000#32) := by decide

/-- V-D1 row 6. -/
theorem test_rx_byte_last :
    (next? (exec (.rxByte 0xBB#8) beforeLast)).map (fun t => (t.mem, t.slots, t.cnt, t.portP.rsp)) =
      some ([(2, { modId := 0x07#8, funId := 0x03#8, dlen := 2#16, pay := [0xAA#8, 0xBB#8] })], [2#16, 0#16], 0#17,
        some 0x00010002#32) := by decide

/-! ## The consumer -/

/-- P2: after GET's response 0x00000002 the consumer issues FREE 2; after QueueEmpty it polls again. -/
theorem test_consumer_requests :
    encode (consumerRequest (consumerSees 0x00000002#32 .polling)) = 0x70000002#32 ∧
    encode (consumerRequest (consumerSees 0x83000000#32 .polling)) = 0x40000000#32 := by decide

/-- The end of P2's frame: REC[2] = (0x07, 0x03, 2, [AA, BB]). -/
def delivered : State :=
  { small 2 .consumer [] with
    mem := [(2, { modId := 0x07#8, funId := 0x03#8, dlen := 2#16, pay := [0xAA#8, 0xBB#8] })] }

/-- A table with one handler, for (0x07, 0x03), which fails on payloads that are not of two bytes. -/
def oneHandler : DispatchTable := fun m f =>
  if m = 0x07#8 ∧ f = 0x03#8 then some fun pay => pay.length == 2 else none

/-- R98: the handler for (0x07, 0x03) is run on AA BB, the consumer then holding handle 2. -/
theorem test_consumer_runs_handler :
    consumerTurn oneHandler 0x00000002#32 .polling delivered = (.holding 2#16, some (.ran [0xAA#8, 0xBB#8] true)) := by
  decide

/-- R98: with no handler registered UnknownCommand is reported, and the handle is held all the same. -/
theorem test_consumer_unknown :
    consumerTurn (fun _ _ => none) 0x00000002#32 .polling delivered =
      (.holding 2#16, some (.reported .unknownCommand)) ∧
    consumerReports (fun _ _ => none) 2#16 delivered = some .unknownCommand := by decide

/-! ## Witnesses: for each statement with hypotheses, a state and operands that meet them -/

/-- A request issued on the ports of `small` is the one pending there. -/
theorem onlyPending_ask (c d : Nat × Port) (p : Port) (w : Word) :
    OnlyPending p w [] (ask p w (small c.1 d.2 [])) := by
  refine ⟨by cases p <;> rfl, fun q hq => ?_⟩
  cases p <;> cases q <;> first | rfl | exact absurd rfl hq

theorem witness_OnlyItsWordDecodesToAnInstruction : decode 0x200000FF#32 = .instr (.rxByte 0xFF#8) := by decide

theorem witness_StepRunsTheDecodedRequest :
    (ask .consumer 0x40000000#32 (small 2 .producer [])).mode = .run ∧
    OnlyPending .consumer 0x40000000#32 [] (ask .consumer 0x40000000#32 (small 2 .producer [])) ∧
    decode 0x40000000#32 = .instr .get :=
  ⟨rfl, onlyPending_ask (2, .producer) (2, .producer) _ _, by decide⟩

/-- Section 2.6's two pending requests. -/
def twoPending : State :=
  { ask .producer 0x20000000#32 (ask .consumer 0x40000000#32 (small 1 .producer [])) with
    env := { allocs := [], builds := [], serves := [.consumer], tick := 0 } }

theorem witness_AnyPendingPortCanBeServedNext :
    twoPending.mode = .run ∧ (twoPending.port .consumer).reqs = [0x40000000#32] ∧ Port.producer ≠ .consumer ∧
    (twoPending.port .producer).reqs ≠ [] ∧ twoPending.env.serves = [.consumer] ∧
    decode 0x40000000#32 = .instr .get := by decide

/-- A word with a reserved OP on port Q, chosen before the byte that is pending on port P. -/
def illegalPending : State :=
  { ask .producer 0x20000000#32 (ask .consumer 0xF0000000#32 (small 1 .producer [])) with
    env := { allocs := [], builds := [], serves := [.consumer], tick := 0 } }

theorem witness_AnyPendingPortCanBeServedNext_illegal :
    illegalPending.mode = .run ∧ (illegalPending.port .consumer).reqs = [0xF0000000#32] ∧
    (illegalPending.port .producer).reqs ≠ [] ∧ illegalPending.env.serves = [.consumer] ∧
    decode 0xF0000000#32 = .illegal .reservedOp := by decide

/-- R58's four clauses at the edges of their ranges, and legal words beside them. -/
theorem witness_IllegalRequestGetsInvalidArgument :
    IllegalWord 0x80000000#32 ∧ IllegalWord 0x30010000#32 ∧ IllegalWord 0x00000001#32 ∧ IllegalWord 0x20000100#32 ∧
    (0x40000000#32 = encode .get ∧ Instr.get.wellFormedOn .producer = false) ∧
    (small 2 .producer []).mode = .run := by
  refine ⟨?_, ?_, ?_, ?_, ?_, ?_⟩ <;> decide

theorem witness_IllegalRequestGetsInvalidArgument_edges :
    IllegalWord 0xF0000000#32 ∧ IllegalWord 0x08000000#32 ∧ IllegalWord 0x50008000#32 ∧
    ¬ IllegalWord 0x200000FF#32 ∧ ¬ IllegalWord 0x7000FFFF#32 := by
  refine ⟨?_, ?_, ?_, ?_, ?_⟩ <;> decide

theorem witness_IllegalRequestGetsInvalidArgument_step :
    OnlyPending .producer 0x80000000#32 [] (ask .producer 0x80000000#32 (small 2 .producer [])) :=
  onlyPending_ask (2, .producer) (2, .producer) _ _

theorem witness_IllegalRequestGetsInvalidArgument_among_several :
    illegalPending.mode = .run ∧ (illegalPending.port .consumer).reqs = [0xF0000000#32] ∧
    ∃ t, step illegalPending = .next t ∧ (t.port .consumer).reqs = [] ∧ (t.port .consumer).rsp = some 0x81000000#32 ∧
      (t.port .producer).reqs = [0x20000000#32] := ⟨rfl, rfl, _, rfl, rfl, by decide, rfl⟩

theorem witness_WrongPortIsRejected :
    (small 2 .consumer []).mode = .run ∧ (Instr.put 1#16).wellFormedOn (small 2 .consumer []).active = false := by
  decide

/-- Each clause: another operation, NOP on port K, a stuck request, and RESET with a request waiting on port P. -/
theorem witness_OffAcceptsOnlyReset :
    offState.mode = .off ∧ ¬(Instr.get = .reset ∧ offState.active = .control) ∧
    ((ask .control 0x00000000#32 offState).port .control).reqs ≠ [] ∧
    (ask .control 0x00000000#32 offState).portK.reqs.head? ≠ some 0x10000000#32 ∧
    (ask .producer 0x20000001#32 (ask .control 0x10000000#32 offState)).portK.reqs = [0x10000000#32] := by decide

theorem witness_OffAcceptsOnlyReset_next :
    ∃ t, step (ask .producer 0x20000001#32 (ask .control 0x10000000#32 offState)) = .next t := ⟨_, rfl⟩

theorem witness_RunningBlockNeverStops :
    (∀ c, ((small 2 .producer []).port c).reqs = []) ∧ (small 2 .producer []).mode = .run :=
  ⟨fun c => by cases c <;> rfl, rfl⟩

theorem witness_EveryOperationCompletes :
    Serving .nop (small 2 .producer []) ∧ Serving .nop (small 2 .consumer []) ∧ Serving .nop (small 2 .control []) ∧
    Serving .reset (small 2 .control []) ∧ Serving (.rxByte 0#8) (small 2 .producer []) ∧
    Serving (.put 0#16) (small 2 .producer []) ∧ Serving (.put 1#16) (small 2 .producer []) ∧
    Serving .get (small 2 .consumer []) ∧ Serving .getStatus (small 2 .consumer []) ∧
    Serving (.alloc 0#16) (small 2 .producer []) ∧ Serving (.dealloc 1#16) (small 2 .producer []) ∧
    Serving (.dealloc 1#16) (small 2 .consumer []) := by decide

theorem witness_StepServesOneRequest :
    (small 2 .producer []).mode = .run ∧ (∃ t, step (small 2 .producer []) = .next t) ∧
    ∃ t, step (ask .consumer 0x40000000#32 (small 2 .producer [])) = .next t := ⟨rfl, ⟨_, rfl⟩, ⟨_, rfl⟩⟩

theorem witness_NopAnswersOk : (small 2 .control []).mode = .run := rfl

theorem witness_SuccessfulResetConstructsTheBlock :
    { offState with env := { offState.env with builds := [true] } }.active = .control ∧
    { offState with env := { offState.env with builds := [true] } }.env.builds = true :: [] := by decide

theorem witness_FailedResetTurnsTheBlockOff :
    { fullOfFour with active := .control, env := { offState.env with builds := [false] } }.active = .control ∧
    { fullOfFour with active := .control, env := { offState.env with builds := [false] } }.env.builds = false :: [] := by
  decide

theorem witness_ResetAlwaysAnswers : offState.active = .control ∧ (small 2 .control []).active = .control := by decide

/-- PUT with one free slot (to FULL), from EMPTY, and with C = 1. -/
theorem witness_PutStoresAtHead :
    Serving (.put 5#16) { fullOfFour with active := .producer, head := 3, size := 3, status := 0x01#8 } ∧
    Serving (.put 1#16) (small 4 .producer []) ∧ (small 4 .producer []).status = 0x00#8 ∧
    Serving (.put 0xFFFF#16) (small 1 .producer []) ∧ (small 1 .producer []).status = 0x00#8 ∧
    (5#16 ≠ 0x0000#16) := by decide

theorem witness_FailedPutChangesNothing :
    Serving (.put 0#16) (small 4 .producer []) ∧
    Serving (.put 1#16) { fullOfFour with active := .producer } ∧ fullOfFour.status = 0x02#8 ∧
    Serving (.put 1#16) (corrupted .producer) ∧ 3 ≤ (corrupted .producer).status.toNat ∧
    Serving (.put 1#16) { corrupted .producer with status := 0xFF#8 } := by decide

theorem witness_GetTakesTheHandleAtTail :
    Serving .get oneQueued ∧ oneQueued.status ≠ 0x00#8 ∧ oneQueued.slots[oneQueued.tail]? = some 1#16 ∧
    Serving .get fullOfFour ∧ fullOfFour.status ≠ 0x00#8 ∧ fullOfFour.slots[fullOfFour.tail]? = some 1#16 ∧
    Serving .get (corrupted .consumer) ∧ (corrupted .consumer).status ≠ 0x00#8 ∧
    (corrupted .consumer).slots[(corrupted .consumer).tail]? = some 0#16 := by decide

theorem witness_GetOnEmptyChangesNothing :
    Serving .get (small 4 .consumer []) ∧ (small 4 .consumer []).status = 0x00#8 := by decide

theorem witness_GetStatusReportsStatus :
    Serving .getStatus (small 4 .consumer []) ∧ Serving .getStatus fullOfFour ∧ Serving .getStatus oneQueued ∧
    Serving .getStatus (corrupted .consumer) := by decide

/-- STATUS 0x03 with SIZE 0, and STATUS 0xFF with SIZE 1 and 7. -/
theorem witness_GetProceedsOnCorruptedStatus :
    (Serving .get (corrupted .consumer) ∧ 3 ≤ (corrupted .consumer).status.toNat ∧ (corrupted .consumer).size = 0 ∧
      0 < (corrupted .consumer).cap ∧ (corrupted .consumer).size < 2 ^ sizeWidth (corrupted .consumer).cap) ∧
    (Serving .get { oneQueued with status := 0xFF#8 } ∧ 1 < 2 ^ sizeWidth 4) ∧
    (Serving .get { oneQueued with status := 0xFF#8, size := 7 } ∧ 7 < 2 ^ sizeWidth 4) := by decide

theorem witness_NullSlotReadsAsNullHandle :
    (Serving .get (corrupted .consumer) ∧ (corrupted .consumer).status ≠ 0x00#8 ∧
      (corrupted .consumer).slots[(corrupted .consumer).tail]? = some 0x0000#16) ∧
    (QueueInv oneQueued ∧ oneQueued.status ≠ 0x00#8) ∧ QueueInv fullOfFour ∧
    Serving (.dealloc 0x0000#16) (small 2 .consumer []) ∧ Serving (.dealloc 0x0000#16) (small 2 .producer []) := by
  decide

theorem witness_reached : Reached State.reset ∧ State.reset.mode = .run := ⟨.reset, rfl⟩

/-- A state a run reaches in which the block is in RUN and a handle is queued: a PUT from reset. -/
theorem witness_reached_put :
    ∃ t, Reached t ∧ t.mode = .run ∧ t.slots = State.reset.slots.set 0 1#16 :=
  ⟨_, .step (.issued .producer 0x30000001#32 .reset) rfl, rfl, rfl⟩

theorem witness_FullConditionsCoincide :
    QueueInv { fullOfFour with slots := [1#16, 2#16, 3#16, 0#16], head := 3, size := 3, status := 0x01#8 } ∧
    (∃ t, enqueue 4#16 { fullOfFour with slots := [1#16, 2#16, 3#16, 0#16], head := 3, size := 3, status := 0x01#8 } =
      (.ok, t) ∧ t.status = 0x02#8 ∧ t.size = t.cap ∧ t.head = t.tail) ∧
    ∃ t, enqueue 9#16 { small 4 .producer [] with tail := 1, size := 7, status := 0x01#8 } = (.ok, t) ∧
      t.status = 0x02#8 ∧ t.size ≠ t.cap := by
  refine ⟨by decide, ⟨_, rfl, ?_⟩, ⟨_, rfl, ?_⟩⟩ <;> decide

theorem witness_QueueIsFirstInFirstOut :
    (QueueInv { oneQueued with active := .producer } ∧ Serving (.put 7#16) { oneQueued with active := .producer } ∧
      7#16 ≠ 0x0000#16 ∧ oneQueued.size < oneQueued.cap) ∧
    QueueInv fullOfFour ∧ Serving .get fullOfFour ∧ 0 < fullOfFour.size := by decide

/-- As many PUTs as there are slots, none, and a ring that starts away from slot 0. -/
theorem witness_QueueHoldsCapacityHandles :
    (QueueInv (small 2 .producer []) ∧ (small 2 .producer []).mode = .run ∧
      (small 2 .producer []).active = .producer ∧ (small 2 .producer []).size = 0 ∧
      [1#16, 2#16].length ≤ (small 2 .producer []).cap) ∧
    QueueInv { small 3 .producer [] with head := 2, tail := 2 } := by decide

theorem witness_QueueHoldsCapacityHandles_handles : ∀ h ∈ [1#16, 2#16], h ≠ 0x0000#16 := by simp

/-- C = 1, where IW is 1 by the maximum alone, and C = 4. -/
theorem witness_CounterWidthsAreBitLengths : 1 ≤ 1 ∧ indexWidth 1 = 1 ∧ 1 ≤ 4 ∧ 1 < indexWidth 4 := by decide

/-- The greatest handle with the greatest and the least length; and a failing draw. -/
theorem witness_AllocFollowsItsDraw :
    (Serving (.alloc 0xFFFF#16) (small 2 .producer [some 0xFFFF#16]) ∧
      (small 2 .producer [some 0xFFFF#16]).env.allocs = some 0xFFFF#16 :: [] ∧ 0xFFFF#16 ≠ 0x0000#16 ∧
      Memory.live (small 2 .producer [some 0xFFFF#16]).mem (0xFFFF#16).toNat = false) ∧
    Serving (.alloc 0#16) (small 2 .producer [none]) ∧ (small 2 .producer [none]).env.allocs = none :: [] := by decide

theorem witness_AllocCompletesUnderEveryDraw : Serving (.alloc 0#16) (small 2 .producer []) := by decide

/-- A store of the handles `l`, each with an empty record. -/
def storeOf (l : List Nat) : Memory := l.map fun k => (k, { modId := 0#8, funId := 0#8, dlen := 0#16, pay := [] })

theorem storeOf_live (l : List Nat) (g : Nat) (hg : g ∈ l) : Memory.live (storeOf l) g = true := by
  induction l with
  | nil => cases hg
  | cons k l ih =>
    by_cases hk : k = g
    · simp [storeOf, Memory.live, Memory.find, hk]
    · have : g ∈ l := (List.mem_cons.mp hg).resolve_left fun e => hk e.symm
      simpa [storeOf, Memory.live, Memory.find, hk] using ih this

theorem storeOf_range_live (n : Nat) (h : Handle) (hh : h ≠ 0x0000#16) (hn : h.toNat ≤ n) :
    Memory.live (storeOf (List.range' 1 n)) h.toNat = true := by
  have h0 : h.toNat ≠ 0 := fun e => hh (BitVec.eq_of_toNat_eq e)
  refine storeOf_live _ _ (List.mem_range'_1.mpr ?_)
  omega

/-- Every handle live. -/
theorem witness_AllocCompletesUnderEveryDraw_full :
    ∃ m : Memory, ∀ h : Handle, h ≠ 0x0000#16 → Memory.live m h.toNat = true :=
  ⟨storeOf (List.range' 1 65535), fun h hh => storeOf_range_live 65535 h hh (Nat.le_of_lt_succ h.isLt)⟩

/-- A live handle, the null handle and a handle that is not live. -/
theorem witness_DeallocReleasesALiveHandle :
    (Serving (.dealloc 1#16) { afterHeader with active := .consumer } ∧ 1#16 ≠ 0x0000#16 ∧
      Memory.live afterHeader.mem (1#16).toNat = true) ∧
    Serving (.dealloc 0#16) afterHeader ∧
    Serving (.dealloc 0xFFFF#16) afterHeader ∧ Memory.live afterHeader.mem (0xFFFF#16).toNat = false := by decide

theorem witness_ReleasedHandleCanBeReused :
    1#16 ≠ 0x0000#16 ∧ Memory.live afterHeader.mem (1#16).toNat = true ∧
    { allocs := [some 1#16], builds := [], serves := [], tick := 0 : Env }.allocs = some 1#16 :: [] := by decide

theorem witness_HeaderBytesAreCopied :
    (Serving (.rxByte 0xFF#8) (small 2 .producer []) ∧ FramingInv (small 2 .producer []) ∧
      (small 2 .producer []).cnt = 0#17) ∧
    FramingInv { small 2 .producer [] with cnt := 1#17, wmod := 0x07#8 } := by decide

theorem witness_LengthLowByteIsAdded :
    Serving (.rxByte 0xFF#8) { small 2 .producer [] with cnt := 2#17 } ∧
    FramingInv { small 2 .producer [] with cnt := 2#17 } := by decide

/-- Byte 3 of the longest frame, and of one with a length below 256. -/
theorem witness_LengthHighByteStartsThePayload :
    (Serving (.rxByte 0xFF#8) { small 2 .producer [some 1#16] with cnt := 3#17, len := 0x00FF#16 } ∧
      FramingInv { small 2 .producer [some 1#16] with cnt := 3#17, len := 0x00FF#16 } ∧
      0xFFFF#16 = 0x00FF#16 + ((0xFF#8).setWidth 16 <<< 8) ∧ 0xFFFF#16 ≠ 0#16 ∧
      (small 2 .producer [some 1#16]).env.allocs = some 1#16 :: [] ∧ 1#16 ≠ 0x0000#16 ∧
      Memory.live (small 2 .producer [some 1#16]).mem (1#16).toNat = false) ∧
    (1#16 = 0x0001#16 + ((0#8).setWidth 16 <<< 8) ∧
      FramingInv { small 2 .producer [some 1#16] with cnt := 3#17, len := 1#16 }) := by decide

theorem witness_LengthHighByteAbandonsTheFrame :
    Serving (.rxByte 0#8) { small 2 .producer [none] with cnt := 3#17, len := 3#16 } ∧
    FramingInv { small 2 .producer [none] with cnt := 3#17, len := 3#16 } ∧
    3#16 = 3#16 + ((0#8).setWidth 16 <<< 8) ∧ 3#16 ≠ 0#16 ∧
    (small 2 .producer [none]).env.allocs = none :: [] := by decide

theorem witness_LengthHighByteCompletesUnderEveryDraw :
    Serving (.rxByte 1#8) { small 2 .producer [] with cnt := 3#17 } ∧
    FramingInv { small 2 .producer [] with cnt := 3#17 } ∧
    0x0100#16 = 0#16 + ((1#8).setWidth 16 <<< 8) ∧ 0x0100#16 ≠ 0#16 := by decide

/-- The first payload byte, and a dropped one. -/
theorem witness_PayloadByteIsStored :
    (Serving (.rxByte 0xAA#8) afterHeader ∧ FramingInv afterHeader ∧ 4 ≤ afterHeader.cnt.toNat ∧
      afterHeader.cnt.toNat + 1 < afterHeader.total.toNat ∧ afterHeader.discard = false ∧
      Memory.wf afterHeader.mem = true ∧ Memory.find afterHeader.mem afterHeader.wh.toNat = some buffer ∧
      buffer.dlen = afterHeader.len) ∧
    Serving (.rxByte 0xDE#8) abandoned ∧ FramingInv abandoned ∧ 4 ≤ abandoned.cnt.toNat ∧
    abandoned.cnt.toNat + 1 < abandoned.total.toNat ∧ abandoned.discard = true := by decide

theorem witness_LastByteEnqueuesTheCommand :
    Serving (.rxByte 0xBB#8) beforeLast ∧ FramingInv beforeLast ∧ 4 ≤ beforeLast.cnt.toNat ∧
    beforeLast.cnt.toNat + 1 = beforeLast.total.toNat ∧ Memory.wf beforeLast.mem = true ∧
    beforeLast.discard = false ∧ beforeLast.wh ≠ 0x0000#16 ∧
    Memory.find beforeLast.mem beforeLast.wh.toNat = some { buffer with pay := [0xAA#8, 0x00#8] } ∧
    buffer.dlen = beforeLast.len ∧ beforeLast.env.allocs = some 2#16 :: [] ∧ 2#16 ≠ 0x0000#16 ∧
    Memory.live beforeLast.mem (2#16).toNat = false ∧ beforeLast.status = 0x00#8 := by decide

/-- V-D1 before its last byte, with the working handle released in flight (10_state.md R30). -/
def bufferGone : State := { beforeLast with mem := [] }

/-- V-A11's kind of state: the working handle handed out again with a record shorter than the payload. -/
def bufferReused : State :=
  { afterHeader with mem := [(1, { modId := 0x00#8, funId := 0x00#8, dlen := 0#16, pay := [] })] }

/-- The same before the frame's last byte, which then falls outside the record. -/
def reusedLast : State := { bufferReused with cnt := 5#17 }

/-- A last byte of each kind: after a payload, of an abandoned frame, and of a frame without payload. -/
theorem witness_LastByteEndsTheFrame :
    (Serving (.rxByte 0xBB#8) beforeLast ∧ FramingInv beforeLast ∧ 4 ≤ beforeLast.cnt.toNat ∧
      beforeLast.cnt.toNat + 1 = beforeLast.total.toNat) ∧
    (Serving (.rxByte 0xBE#8) { abandoned with cnt := 6#17 } ∧ FramingInv { abandoned with cnt := 6#17 }) ∧
    (Serving (.rxByte 0#8) { small 2 .producer [] with cnt := 3#17 } ∧
      FramingInv { small 2 .producer [] with cnt := 3#17 } ∧ 0#16 + ((0#8).setWidth 16 <<< 8) = 0#16) := by decide

/-- The last byte after WH was released in flight, and with STATUS FULL and INVALID. -/
theorem witness_LastByteEndsTheFrame_others :
    (Serving (.rxByte 0xBB#8) bufferGone ∧ FramingInv bufferGone ∧ ¬ WorkingInv bufferGone ∧
      bufferGone.cnt.toNat + 1 = bufferGone.total.toNat) ∧
    (Serving (.rxByte 0xBB#8) { beforeLast with status := 0x02#8 } ∧ FramingInv { beforeLast with status := 0x02#8 }) ∧
    (Serving (.rxByte 0xBB#8) { beforeLast with status := 0x03#8 } ∧
      FramingInv { beforeLast with status := 0x03#8 }) := by decide

/-- The last byte outside a reused, too short record. -/
theorem witness_LastByteEndsTheFrame_reused :
    Serving (.rxByte 0xBB#8) reusedLast ∧ FramingInv reusedLast ∧ 4 ≤ reusedLast.cnt.toNat ∧
    reusedLast.cnt.toNat + 1 = reusedLast.total.toNat ∧ reusedLast.discard = false := by decide

/-- The last but one and the last payload byte of the longest frame. -/
theorem witness_LengthIsLittleEndian :
    (FramingInv { abandoned with len := 0xFFFF#16, total := 65539#17, cnt := 65538#17 } ∧ 4 ≤ (65538#17).toNat) ∧
    FramingInv { abandoned with len := 0xFFFF#16, total := 65539#17, cnt := 4#17 } := by decide

/-- A frame with a payload, and one without. -/
theorem witness_FrameRoundTrips :
    ((small 2 .producer [some 1#16, some 2#16]).mode = .run ∧
      (small 2 .producer [some 1#16, some 2#16]).active = .producer ∧
      QueueInv (small 2 .producer [some 1#16, some 2#16]) ∧ DecoderIdle (small 2 .producer [some 1#16, some 2#16]) ∧
      Memory.wf (small 2 .producer [some 1#16, some 2#16]).mem = true ∧
      (small 2 .producer [some 1#16, some 2#16]).size < (small 2 .producer [some 1#16, some 2#16]).cap ∧
      [0xAA#8, 0xBB#8].length ≤ 65535 ∧ 2#16 ≠ 0x0000#16 ∧
      Memory.live (small 2 .producer [some 1#16, some 2#16]).mem (2#16).toNat = false ∧ 1#16 ≠ 0x0000#16 ∧
      Memory.live (small 2 .producer [some 1#16, some 2#16]).mem (1#16).toNat = false ∧ 1#16 ≠ 2#16 ∧
      (small 2 .producer [some 1#16, some 2#16]).env.allocs =
        if [0xAA#8, 0xBB#8] = [] then some 2#16 :: [] else some 1#16 :: some 2#16 :: []) ∧
    (small 2 .producer [some 2#16]).env.allocs =
      if ([] : List Byte) = [] then some 2#16 :: [] else some 1#16 :: some 2#16 :: [] := by decide

theorem witness_AbandonedFrameIsCountedOut :
    (small 2 .producer [none]).mode = .run ∧ (small 2 .producer [none]).active = .producer ∧
    DecoderIdle (small 2 .producer [none]) ∧ [0xDE#8, 0xAD#8, 0xBE#8] ≠ [] ∧
    [0xDE#8, 0xAD#8, 0xBE#8].length ≤ 65535 ∧ (small 2 .producer [none]).env.allocs = none :: [] := by decide

theorem witness_StepKeepsTheInvariants :
    BlockInv (ask .producer 0x200000BB#32 beforeLast) ∧
    ∃ t, step (ask .producer 0x200000BB#32 beforeLast) = .next t ∧ t.size = 1 := ⟨by decide, _, rfl, by decide⟩

theorem witness_WorkingBufferIsKept :
    afterHeader.mode = .run ∧ FramingInv afterHeader ∧ WorkingInv afterHeader ∧
    (∃ t, exec (.rxByte 0xAA#8) afterHeader = .next t ∧ t.mode = .run) ∧
    (∃ t, exec (.dealloc 2#16) afterHeader = .next t ∧ t.mode = .run) ∧ 2#16 ≠ afterHeader.wh :=
  ⟨rfl, by decide, by decide, ⟨_, rfl, rfl⟩, ⟨_, rfl, rfl⟩, by decide⟩

theorem witness_CapacityIsFixedAndOnlyResetChangesMode :
    (∃ t, exec .reset { offState with env := { offState.env with builds := [true] } } = .next t ∧
      t.mode ≠ offState.mode) ∧
    ∃ t, step (ask .consumer 0x40000000#32 (small 2 .producer [])) = .next t := ⟨⟨_, rfl, by decide⟩, ⟨_, rfl⟩⟩

theorem witness_HeadAndTailHaveOneWriterEach :
    (∃ t, exec (.put 1#16) (small 4 .producer []) = .next t ∧ t.head ≠ (small 4 .producer []).head) ∧
    (∃ t, exec (.rxByte 0xBB#8) beforeLast = .next t ∧ t.head ≠ beforeLast.head) ∧
    ∃ t, exec .get fullOfFour = .next t ∧ t.tail ≠ fullOfFour.tail :=
  ⟨⟨_, rfl, by decide⟩, ⟨_, rfl, by decide⟩, ⟨_, rfl, by decide⟩⟩

theorem witness_OnlyTheDecoderLogs :
    FramingInv { small 2 .producer [none] with cnt := 3#17, len := 3#16 } ∧
    ∃ t, exec (.rxByte 0#8) { small 2 .producer [none] with cnt := 3#17, len := 3#16 } = .next t ∧
      t.log.length = 1 := ⟨by decide, _, rfl, rfl⟩

theorem witness_NopAndGetStatusFrame :
    (∃ t, exec .nop fullOfFour = .next t) ∧ ∃ t, exec .getStatus fullOfFour = .next t := ⟨⟨_, rfl⟩, ⟨_, rfl⟩⟩

theorem witness_PutFrame : ∃ t, exec (.put 1#16) (small 4 .producer []) = .next t ∧ t.size = 1 := ⟨_, rfl, by decide⟩

theorem witness_GetFrame : ∃ t, exec .get fullOfFour = .next t ∧ t.size = 3 := ⟨_, rfl, by decide⟩

theorem witness_AllocFrame :
    Memory.live afterHeader.mem 2 = false ∧
    ∃ t, exec (.alloc 1#16) afterHeader = .next t ∧ Memory.live t.mem 2 = true := ⟨by decide, _, rfl, by decide⟩

theorem witness_DeallocFrame :
    ∃ t, exec (.dealloc 1#16) afterHeader = .next t ∧ Memory.live t.mem 1 = false := ⟨_, rfl, by decide⟩

/-- Each of the three kinds of byte inside a frame: the header's, byte 3 with a length, and a payload byte, the last
under the decoder invariant. -/
theorem witness_RxByteFrameInsideAFrame :
    (FramingInv { small 2 .producer [] with cnt := 2#17 } ∧
      ∃ t, exec (.rxByte 1#8) { small 2 .producer [] with cnt := 2#17 } = .next t) ∧
    (FramingInv { small 2 .producer [some 1#16] with cnt := 3#17, len := 2#16 } ∧
      2#16 + ((0#8).setWidth 16 <<< 8) ≠ 0#16 ∧
      ∃ t, exec (.rxByte 0#8) { small 2 .producer [some 1#16] with cnt := 3#17, len := 2#16 } = .next t) ∧
    (FramingInv afterHeader ∧ WorkingInv afterHeader ∧ Memory.wf afterHeader.mem = true ∧ 4 ≤ afterHeader.cnt.toNat ∧
      afterHeader.cnt.toNat + 1 < afterHeader.total.toNat ∧ ∃ t, exec (.rxByte 0xAA#8) afterHeader = .next t) :=
  ⟨⟨by decide, _, rfl⟩, ⟨by decide, by decide, _, rfl⟩,
    ⟨by decide, by decide, by decide, by decide, by decide, _, rfl⟩⟩

/-- A payload byte outside a reused record, and one dropped in discard mode. -/
theorem witness_RxByteFrameInsideAFrame_others :
    (FramingInv bufferReused ∧ 4 ≤ bufferReused.cnt.toNat ∧ bufferReused.cnt.toNat + 1 < bufferReused.total.toNat ∧
      ∃ t, exec (.rxByte 0xAA#8) bufferReused = .next t) ∧
    (FramingInv abandoned ∧ 4 ≤ abandoned.cnt.toNat ∧ abandoned.cnt.toNat + 1 < abandoned.total.toNat ∧
      abandoned.discard = true ∧ ∃ t, exec (.rxByte 0xDE#8) abandoned = .next t) :=
  ⟨⟨by decide, by decide, by decide, _, rfl⟩, ⟨by decide, by decide, by decide, rfl, _, rfl⟩⟩

/-- Both kinds of byte that end a frame, and the last byte after WH was released in flight. -/
theorem witness_RxByteFrameAtTheBoundary :
    (FramingInv { small 2 .producer [some 1#16] with cnt := 3#17 } ∧
      Serving (.rxByte 0#8) { small 2 .producer [some 1#16] with cnt := 3#17 } ∧
      ∃ t, exec (.rxByte 0#8) { small 2 .producer [some 1#16] with cnt := 3#17 } = .next t) ∧
    (FramingInv beforeLast ∧ Serving (.rxByte 0xBB#8) beforeLast ∧ beforeLast.discard = false ∧
      beforeLast.wh ≠ 0x0000#16 ∧ ∃ t, exec (.rxByte 0xBB#8) beforeLast = .next t) ∧
    (FramingInv bufferGone ∧ Serving (.rxByte 0xBB#8) bufferGone ∧
      ∃ t, exec (.rxByte 0xBB#8) bufferGone = .next t) :=
  ⟨⟨by decide, by decide, _, rfl⟩, ⟨by decide, by decide, rfl, by decide, _, rfl⟩, ⟨by decide, by decide, _, rfl⟩⟩

/-- The last byte outside a reused, too short record; a Command that becomes live and is the DATA of an Ok response; and
a Command dropped on FULL, which is released again. -/
theorem witness_RxByteFrameAtTheBoundary_others :
    (FramingInv reusedLast ∧ Serving (.rxByte 0xBB#8) reusedLast ∧ 4 ≤ reusedLast.cnt.toNat ∧
      reusedLast.cnt.toNat + 1 = reusedLast.total.toNat ∧ reusedLast.discard = false ∧ reusedLast.wh = 1#16 ∧
      Memory.live reusedLast.mem 1 = true ∧ ∃ t, exec (.rxByte 0xBB#8) reusedLast = .next t) ∧
    (Memory.live beforeLast.mem 2 = false ∧ ∃ t, exec (.rxByte 0xBB#8) beforeLast = .next t ∧
      Memory.live t.mem 2 = true ∧ t.portP.rsp = some 0x00010002#32) ∧
    ∃ t, exec (.rxByte 0xBB#8) { beforeLast with status := 0x02#8 } = .next t ∧ Memory.live t.mem 2 = false :=
  ⟨⟨by decide, by decide, by decide, by decide, rfl, rfl, by decide, _, rfl⟩,
    ⟨by decide, _, rfl, by decide, by decide⟩, ⟨_, rfl, by decide⟩⟩

/-- A Command with a handler and one without; a GET that fails. -/
theorem witness_ConsumerReleasesEachHandleOnce :
    Memory.find delivered.mem (2#16).toNat =
      some { modId := 0x07#8, funId := 0x03#8, dlen := 2#16, pay := [0xAA#8, 0xBB#8] } ∧
    (oneHandler 0x07#8 0x03#8).isSome = true ∧ (oneHandler 0x07#8 0x04#8).isSome = false ∧
    Code.queueEmpty ≠ Code.ok := by decide

end Sys2Proof.Tests
end

/-! PROOFS. Family 30_encoding: illegal requests (R58). -/

namespace Sys2Proof

/-- The byte of RX_BYTE, widened to ARG, leaves ARG[15:8] zero (R54). -/
theorem extractLsb'_high_setWidth (b : Byte) : (b.setWidth 16).extractLsb' 8 8 = 0#8 := by
  apply BitVec.eq_of_toNat_eq
  have := b.isLt
  simp only [BitVec.extractLsb'_toNat, BitVec.toNat_setWidth, BitVec.toNat_ofNat, Nat.shiftRight_eq_div_pow]
  omega

/-- The byte of RX_BYTE, widened to ARG, is read back from ARG[7:0] (R54). -/
theorem extractLsb'_low_setWidth (b : Byte) : (b.setWidth 16).extractLsb' 0 8 = b := by
  apply BitVec.eq_of_toNat_eq
  have := b.isLt
  simp only [BitVec.extractLsb'_toNat, BitVec.toNat_setWidth, Nat.shiftRight_eq_div_pow]
  omega

theorem decodeRxByte_setWidth (b : Byte) : decodeRxByte (b.setWidth 16) = .instr (.rxByte b) := by
  rw [decodeRxByte, if_pos (extractLsb'_high_setWidth b), extractLsb'_low_setWidth]

@[simp] theorem decode_encode (i : Instr) : decode (encode i) = .instr i := by
  rw [decode, if_pos (rsvField_encode i), opField_encode, argField_encode]
  cases i with
  | rxByte b => exact decodeRxByte_setWidth b
  | nop | reset | put | get | getStatus | alloc | dealloc => rfl

/-- ARG[15:8] are bits [15:8] of the word. -/
theorem argField_high (w : Word) : (argField w).extractLsb' 8 8 = w.extractLsb' 8 8 := by
  apply BitVec.eq_of_toNat_eq
  simp only [BitVec.extractLsb'_toNat, argField_toNat, Nat.shiftRight_eq_div_pow]
  omega

/-- An operand is refused where the operation has none (R54, R58). -/
theorem decodeNoOperand_illegal (i : Instr) {arg : BitVec 16} (h : arg ≠ 0#16) :
    decodeNoOperand i arg = .illegal .argNotZero := if_neg h

/-- RX_BYTE is refused with a bit of ARG[15:8] set (R54, R58). -/
theorem decodeRxByte_illegal {arg : BitVec 16} (h : arg.extractLsb' 8 8 ≠ 0#8) :
    decodeRxByte arg = .illegal .argNotZero := if_neg h

/-- A non-zero RSV is refused whatever the other fields hold. -/
theorem decode_reservedBits {w : Word} (h : rsvField w ≠ 0#12) : decode w = .illegal .reservedBits := if_neg h

theorem decode_reservedOp {w : Word} (rsv : rsvField w = 0#12) (op : 8 ≤ (opField w).toNat) :
    decode w = .illegal .reservedOp := by
  rw [decode, if_pos rsv]
  split
  case h_9 => rfl
  all_goals omega

theorem decode_operand_of_noOperand {w : Word} (rsv : rsvField w = 0#12) (op : (opField w).toNat ∈ [0, 1, 4, 5])
    (arg : argField w ≠ 0#16) : decode w = .illegal .argNotZero := by
  rw [decode, if_pos rsv]
  simp only [List.mem_cons, List.not_mem_nil, or_false] at op
  rcases op with op | op | op | op <;> rw [op] <;> exact decodeNoOperand_illegal _ arg

theorem decode_highBits_of_rxByte {w : Word} (rsv : rsvField w = 0#12) (op : (opField w).toNat = 2)
    (arg : (argField w).extractLsb' 8 8 ≠ 0#8) : decode w = .illegal .argNotZero := by
  rw [decode, if_pos rsv, op]
  exact decodeRxByte_illegal arg

namespace Machine

/-- Every word R58 calls illegal is refused by the decoder: one reason for each of its clauses. -/
theorem IllegalWord.decode_refuses {w : Word} (h : IllegalWord w) : ∃ why, decode w = .illegal why := by
  by_cases rsv : rsvField w = 0#12
  · rcases h with op | bits | ⟨op, arg⟩ | ⟨op, arg⟩
    · exact ⟨_, decode_reservedOp rsv op⟩
    · exact absurd rsv bits
    · exact ⟨_, decode_operand_of_noOperand rsv op arg⟩
    · exact ⟨_, decode_highBits_of_rxByte rsv op (by rwa [argField_high])⟩
  · exact ⟨_, decode_reservedBits rsv⟩

theorem runWord_of_illegal {w : Word} {why : Illegal} (s : State) (h : decode w = .illegal why) :
    runWord w s = .next (raise .invalidArgument s) := by
  rw [runWord, h]

/-- An operation's word is run as that operation. -/
@[simp] theorem runWord_encode (i : Instr) (s : State) : runWord (encode i) s = exec i s := by
  rw [runWord, decode_encode]

theorem exec_misrouted {i : Instr} {s : State} (run : s.mode = .run) (h : i.wellFormedOn s.active = false) :
    exec i s = .next (raise .invalidArgument s) := by
  rw [exec_eq_transact, transact_misrouted _ run h]

/-- R58's condition on the request word `w` on port `c`: it is illegal on every port, or names an operation that `c`
does not accept. -/
def IllegalOn (c : Port) (w : Word) : Prop :=
  IllegalWord w ∨ ∃ i : Instr, w = encode i ∧ i.wellFormedOn c = false

/-- In RUN an illegal request is answered InvalidArgument, STATUS, 0x0000, and nothing else changes (R58). -/
theorem runWord_illegalOn {w : Word} {s : State} (run : s.mode = .run) (h : IllegalOn s.active w) :
    runWord w s = .next (answer (0x81#8 ++ s.status ++ 0x0000#16) s) := by
  have raised : raise .invalidArgument s = answer (0x81#8 ++ s.status ++ 0x0000#16) s := respond_run run _ _
  rw [← raised]
  rcases h with illegal | ⟨i, rfl, port⟩
  · obtain ⟨why, hw⟩ := illegal.decode_refuses
    exact runWord_of_illegal s hw
  · rw [runWord_encode, exec_misrouted run port]

/-- The same for a request that a step has just put in service. -/
theorem runWord_inService_illegalOn {c : Port} {w : Word} {s : State} (rest : List Word) (run : s.mode = .run)
    (h : IllegalOn c w) :
    runWord w (inService c rest s) = .next (answer (0x81#8 ++ s.status ++ 0x0000#16) (inService c rest s)) := by
  simpa using runWord_illegalOn (s := inService c rest s) (by simpa using run) h

/-- In RUN a step that takes the outstanding request off port `c` is the transaction of that request: a step that served
another port would have left it. -/
theorem step_served {s t : State} {c : Port} {w : Word} {rest : List Word} (run : s.mode = .run)
    (hr : (s.port c).reqs = w :: rest) (h : step s = .next t) (taken : (t.port c).reqs = rest) :
    ∃ serves tick,
      runWord w (inService c rest { s with env := { s.env with serves := serves, tick := tick } }) = .next t := by
  rcases step_cases h with ⟨idle, -⟩ | ⟨d, w', rest', serves, tick, -, hr', ht⟩
  · rw [idle c] at hr
    cases hr
  · by_cases hc : c = d
    · subst hc
      rw [hr] at hr'
      cases hr'
      exact ⟨serves, tick, ht⟩
    · have kept : t.port c = s.port c := by
        rw [runWord_port_other (by simpa using run) ht (by simpa using hc), inService_port_other _ _ _ hc,
          setEnv_port]
      rw [kept, hr] at taken
      exact absurd taken (List.cons_ne_self w rest)

/-- Settles O8: an illegal request is answered by `runWord_illegalOn`, and each kind of step that takes it off its port
is that transaction. -/
theorem illegalRequestGetsInvalidArgument : Obligations.IllegalRequestGetsInvalidArgument := by
  refine ⟨fun s w run h => runWord_illegalOn run h, fun s c w rest run only h => ?_,
    fun s t c w rest run hr h hs taken => ?_⟩
  · rw [step_of_servable (servable_only run only) only.1]
    exact runWord_inService_illegalOn rest run h
  · obtain ⟨serves, tick, ht⟩ := step_served run hr hs taken
    have answered := ht.symm.trans (runWord_inService_illegalOn rest (by exact run) h)
    exact ⟨serves, tick, Host.Outcome.next.inj answered⟩

end Machine

end Sys2Proof

/-! PROOFS. Family 40_frame_decoder: the header and the length (R66, R67, R75), and the framing of the states a run
reaches. -/

namespace Sys2Proof

namespace Machine

/-! ## What intact framing says of LEN and TOTAL -/

/-- LEN is 0 until byte 2 has come (R30, R67). -/
theorem FramingInv.len_eq_zero {s : State} (inv : FramingInv s) (le : s.cnt.toNat ≤ 2) : s.len = 0#16 := by
  obtain ⟨-, -, zero, -⟩ := inv
  exact zero le

/-- Past the header TOTAL counts the header and the payload (R30). -/
theorem FramingInv.total_eq {s : State} (inv : FramingInv s) (ge : 4 ≤ s.cnt.toNat) :
    s.total.toNat = 4 + s.len.toNat := by
  obtain ⟨-, -, -, payload⟩ := inv
  exact (payload ge).2

/-- The longest frame is a header of 4 bytes and 65535 bytes of payload (R75). -/
theorem FramingInv.total_le {s : State} (inv : FramingInv s) : s.total.toNat ≤ 65539 := by
  rcases Nat.lt_or_ge s.cnt.toNat 4 with lt | ge
  · obtain ⟨-, header, -, -⟩ := inv
    obtain ⟨total, -, -⟩ := header (by omega)
    rw [total]
    decide
  · have := inv.total_eq ge
    have := s.len.isLt
    omega

/-! ## The answer to a byte -/

/-- RX_BYTE never changes MODE (R17). -/
@[simp] theorem receive_mode (b : Byte) (s : State) : (receive b s).2.2.mode = s.mode := by
  obtain ⟨-, -, same | ⟨f, s1, -, -, same, ht⟩⟩ := receive_shape b s
  · rw [same]
  · rw [ht, enqueued_mode, same]

/-- In service RX_BYTE answers the code and the data of `receive`, with STATUS after the transaction (R56, R65). -/
theorem exec_rxByte_answer {s s1 : State} {b : Byte} {r : Code} {v : Handle} (h : Serving (.rxByte b) s)
    (e : receive b s = (r, v, s1)) : exec (.rxByte b) s = .next (answer (r.num ++ s1.status ++ v) s1) := by
  have run : s1.mode = .run := by
    have kept := receive_mode b s
    rw [e] at kept
    exact kept.trans h.1
  rw [exec_rxByte h e, respond_run run]

/-- Settles O33: the two header bytes are `receive_byte0` and `receive_byte1`. -/
theorem headerBytesAreCopied : Obligations.HeaderBytesAreCopied := by
  intro s b serving inv
  refine ⟨fun h => ?_, fun h => ?_⟩
  · rw [exec_rxByte_answer serving (receive_byte0 inv b h), Code.num]
  · rw [exec_rxByte_answer serving (receive_byte1 inv b h), Code.num]

/-- Settles O34: LEN is 0 before byte 2, so the sum is the byte that `receive_byte2` leaves in LEN. -/
theorem lengthLowByteIsAdded : Obligations.LengthLowByteIsAdded := by
  intro s b serving inv h
  have zero : s.len = 0#16 := inv.len_eq_zero (by rw [h]; decide)
  have sum : s.len + b.setWidth 16 = b.setWidth 16 := by rw [zero, BitVec.zero_add]
  refine ⟨?_, zero, sum⟩
  rw [exec_rxByte_answer serving (receive_byte2 inv b h), sum, Code.num]

/-! ## The length -/

/-- Byte 2 added into a zero accumulator (R67). -/
theorem addLengthLow_zero (b2 : Byte) : addLengthLow 0#16 b2 = b2.setWidth 16 := BitVec.zero_add _

theorem addLengthLow_zero_toNat (b2 : Byte) : (addLengthLow 0#16 b2).toNat = b2.toNat := by
  have := b2.isLt
  rw [addLengthLow_zero, BitVec.toNat_setWidth]
  omega

/-- The two length bytes as a number: neither addition wraps (R75). -/
theorem addLengthHigh_addLengthLow_toNat (b2 b3 : Byte) :
    (addLengthHigh (addLengthLow 0#16 b2) b3).toNat = b2.toNat + 256 * b3.toNat := by
  have := b2.isLt
  have := b3.isLt
  simp only [addLengthHigh, BitVec.toNat_add, addLengthLow_zero_toNat, BitVec.toNat_shiftLeft,
    BitVec.toNat_setWidth, Nat.shiftLeft_eq]
  omega

/-- The two length bytes are LEN's high and low byte (R75). -/
theorem addLengthHigh_addLengthLow (b2 b3 : Byte) : addLengthHigh (addLengthLow 0#16 b2) b3 = b3 ++ b2 := by
  apply BitVec.eq_of_toNat_eq
  rw [addLengthHigh_addLengthLow_toNat, BitVec.toNat_append, ← Nat.shiftLeft_add_eq_or_of_lt b2.isLt,
    Nat.shiftLeft_eq]
  omega

/-- A byte past the header is a payload byte, and Finalize runs exactly where CNT becomes TOTAL (R69, R70). -/
theorem FramingInv.receive_payload_eq {s : State} (inv : FramingInv s) (b : Byte) (ge : 4 ≤ s.cnt.toNat) :
    Machine.receive b s = if s.cnt.toNat + 1 = s.total.toNat then finalize (countByte (takeByte b s).2)
      else (.ok, 0x0000#16, countByte (takeByte b s).2) := by
  rw [takeByte_payload b ge]
  split
  · next last => exact receive_last inv b ge last
  · next more =>
    have lt := inv.1
    exact receive_payload inv b ge (by omega)

/-! ## The framing of the states a run reaches -/

/-- In RUN the framing is intact: the part of R30 that no ownership violation breaks. -/
def RunFraming (s : State) : Prop := s.mode = .run → FramingInv s

theorem respond_sameDecoder (r : Code) (v : Handle) (s : State) : SameDecoder s (respond r v s) := by
  simp [SameDecoder]

/-- No operation but RX_BYTE and RESET changes a register of the decoder (R43). -/
theorem bodyOf_sameDecoder {i : Instr} (s : State) (rx : ∀ b, i ≠ .rxByte b) (reset : i ≠ .reset) :
    SameDecoder s (bodyOf i s) := by
  cases i with
  | rxByte b => exact absurd rfl (rx b)
  | reset => exact absurd rfl reset
  | nop => exact respond_sameDecoder _ _ _
  | getStatus => exact respond_sameDecoder _ _ _
  | put h =>
    simp only [bodyOf, putBody]
    split
    · exact respond_sameDecoder _ _ _
    · cases hp : putFailure s.status with
      | none => rw [enqueue_stored hp]; exact respond_sameDecoder _ _ (enqueued h s)
      | some c => rw [enqueue_refused hp]; exact respond_sameDecoder _ _ _
  | get =>
    simp only [bodyOf, getBody]
    split
    · exact respond_sameDecoder _ _ _
    · exact respond_sameDecoder _ _ (dequeued s)
  | alloc n =>
    simp only [bodyOf, allocBody]
    rcases poolAlloc_cases n s with ⟨e, h⟩ | ⟨_, e, k, -, -, h⟩ <;> rw [h] <;>
      exact respond_sameDecoder _ _ { s with env := e, mem := _ }
  | dealloc h =>
    simp only [bodyOf, deallocBody]
    by_cases c : h = 0x0000#16 ∨ Memory.live s.mem h.toNat = false
    · rw [poolFree_warning c]
      exact respond_sameDecoder _ _ _
    · obtain ⟨ne, live⟩ := not_or.1 c
      rw [poolFree_live ne (by simpa using live)]
      exact respond_sameDecoder _ _ { s with mem := _ }

theorem constructed_idle (s : State) : DecoderIdle (constructed s) := by simp [DecoderIdle]

/-- A RESET that ends in RUN leaves the decoder in its initial configuration (R73, R117). -/
theorem resetBody_runFraming (s : State) : RunFraming (resetBody s) := by
  intro run
  unfold resetBody at run ⊢
  split at run
  · exact (constructed_idle _).framing.congr (respond_sameDecoder _ _ _)
  · simp at run

/-- An operation in service keeps the framing: RX_BYTE by `FramingInv.receive`, RESET by the initial configuration, and
the others leave the decoder alone (R30). -/
theorem FramingInv.bodyOf {s : State} (inv : FramingInv s) (i : Instr) : RunFraming (bodyOf i s) := by
  by_cases reset : i = .reset
  · subst reset
    exact resetBody_runFraming s
  · intro _
    by_cases rx : ∃ b, i = .rxByte b
    · obtain ⟨b, rfl⟩ := rx
      exact (inv.receive b).congr (respond_sameDecoder _ _ _)
    · exact inv.congr (bodyOf_sameDecoder s (not_exists.1 rx) reset)

/-- A transaction that ends in an error code alone keeps the framing (R107). -/
theorem RunFraming.raise {s : State} (inv : RunFraming s) (c : Code) : RunFraming (raise c s) := fun run =>
  (inv (by simpa [Machine.raise] using run)).congr (respond_sameDecoder _ _ _)

theorem RunFraming.exec {i : Instr} {s t : State} (inv : RunFraming s) (h : exec i s = .next t) : RunFraming t := by
  rcases exec_next h with ⟨serving, rfl⟩ | ⟨-, rfl, -, rfl⟩ | ⟨-, -, rfl⟩
  · exact (inv serving.1).bodyOf i
  · exact resetBody_runFraming s
  · exact inv.raise _

theorem RunFraming.runWord {w : Word} {s t : State} (inv : RunFraming s) (h : runWord w s = .next t) :
    RunFraming t := by
  unfold Machine.runWord at h
  split at h
  · exact inv.exec h
  · cases h
    exact inv.raise _

/-- Taking a request into service, and the choice of its port, leave the framing alone. -/
theorem RunFraming.inService {s : State} (inv : RunFraming s) (e : Env) (c : Port) (rest : List Word) :
    RunFraming (inService c rest { s with env := e }) := fun run =>
  (inv (by simpa using run)).congr (by simp [SameDecoder])

/-- Every step keeps the framing (R30). -/
theorem RunFraming.step {s t : State} (inv : RunFraming s) (h : step s = .next t) : RunFraming t := by
  rcases step_cases h with ⟨-, rfl⟩ | ⟨c, w, rest, serves, tick, -, -, ht⟩
  · exact inv
  · exact (inv.inService _ c rest).runWord ht

/-- In every state a run reaches in RUN the framing is intact: no step and nothing the environment does breaks it (R30). -/
theorem Reached.runFraming {s : State} (h : Reached s) : RunFraming s := by
  induction h with
  | reset => exact fun _ => DecoderIdle.framing (by decide)
  | step _ h ih => exact ih.step h
  | issued c w _ ih =>
    exact fun run => (ih (by simpa [issue] using run)).congr (by simp [SameDecoder, issue])
  | chosen e _ ih => exact ih
  | @written s h m f pay _ ih =>
    obtain ⟨mem, hm, -⟩ := ownerWrites_shape h m f pay s
    rw [hm]
    exact ih

/-- Settles O41: the sums as numbers, the bounds from the framing invariant that every reached state in RUN has, and
Finalize at TOTAL = 65539. -/
theorem lengthIsLittleEndian : Obligations.LengthIsLittleEndian := by
  refine ⟨fun b2 b3 => ⟨addLengthHigh_addLengthLow b2 b3, addLengthLow_zero_toNat b2,
    addLengthHigh_addLengthLow_toNat b2 b3⟩, fun s inv => ?_, fun s h => h.runFraming, fun s b inv ge len => ?_⟩
  · have le := inv.total_le
    exact ⟨le, Nat.le_trans inv.1 le⟩
  · have total : s.total.toNat = 65539 := by
      rw [inv.total_eq ge, len]
      rfl
    have received := inv.receive_payload_eq b ge
    rw [total] at received
    exact ⟨total, received⟩

end Machine

end Sys2Proof

/-! PROOFS. Family 41_command_pool: a handle released and handed out again (R79, R84). -/

namespace Sys2Proof

namespace Machine

/-- An erased handle is not live (R79). -/
@[simp] theorem Memory.live_erase_self (m : Memory) (h : Nat) : Memory.live (Memory.erase m h) h = false :=
  Memory.live_eq_false.2 (Memory.find_erase_self m h)

/-- A handle with a record inserted is live (R78). -/
@[simp] theorem Memory.live_insert_self (m : Memory) (h : Nat) (r : Record) :
    Memory.live (Memory.insert m h r) h = true := by
  rw [Memory.live, Memory.find_insert_self, Option.isSome_some]

/-- Settles O32: the release leaves the handle free, so a second one warns and the Pool may draw it again, which puts a
fresh record under the handle; the stale release is then one of a live handle. -/
theorem releasedHandleCanBeReused : Obligations.ReleasedHandleCanBeReused := by
  intro s h ne live
  have free : Memory.live (Memory.erase s.mem h.toNat) h.toNat = false := Memory.live_erase_self _ _
  refine ⟨_, poolFree_live ne live, poolFree_warning (.inr free), fun g other => Memory.find_erase_other _ other,
    by simp [SameQueue], fun n e rest drawn => ?_⟩
  refine ⟨_, freshRecord e.tick n, poolAlloc_drawn drawn ne free, Memory.find_insert_self _ _ _,
    freshRecord_dlen _ _, ?_⟩
  exact ⟨_, poolFree_live ne (Memory.live_insert_self _ _ _), Memory.live_erase_self _ _⟩

end Machine

end Sys2Proof

/-! PROOFS. Family 42_queue: the queue invariant along every run (R29), null slots (R92), and the two conditions for
FULL (R93). -/

namespace Sys2Proof

namespace Machine

/-! ## What an operation does to the queue -/

/-- The capacity and the queue's registers and slots are unchanged. -/
def SameRing (s t : State) : Prop := t.cap = s.cap ∧ SameQueue s t

theorem SameRing.refl (s : State) : SameRing s s := ⟨rfl, rfl, rfl, rfl, rfl, rfl⟩

/-- A response leaves the queue alone. -/
theorem respond_sameRing (r : Code) (v : Handle) (s : State) : SameRing s (respond r v s) := by
  simp [SameRing, SameQueue]

theorem SameButDecoder.sameRing {s t : State} (h : SameButDecoder s t) : SameRing s t := by
  rw [h]
  exact .refl s

theorem SameRing.trans {s t u : State} (st : SameRing s t) (tu : SameRing t u) : SameRing s u := by
  obtain ⟨cap, head, tail, size, status, slots⟩ := st
  obtain ⟨cap', head', tail', size', status', slots'⟩ := tu
  exact ⟨cap'.trans cap, head'.trans head, tail'.trans tail, size'.trans size, status'.trans status,
    slots'.trans slots⟩

/-- What an Enqueue leaves of the queue depends on the queue alone. -/
theorem SameRing.enqueued {s t : State} (h : SameRing s t) (f : Handle) :
    SameRing (enqueued f s) (enqueued f t) := by
  obtain ⟨cap, head, tail, size, status, slots⟩ := h
  simp [SameRing, SameQueue, cap, head, tail, size, slots]

theorem QueueInv.sameRing {s t : State} (inv : QueueInv s) (same : SameRing s t) : QueueInv t :=
  inv.congr same.1 same.2

/-- Everything that an operation can do to the queue, from `s` to `t`, short of a construction: leave it alone, store a
non-null handle on a STATUS that admits it (R86), or take the handle at TAIL (R88). -/
inductive QueueMove (s t : State) : Prop where
  | kept (same : SameRing s t)
  | stored (f : Handle) (ne : f ≠ 0x0000#16) (room : putFailure s.status = none) (same : SameRing (enqueued f s) t)
  | taken (some : s.status ≠ statusEmpty) (same : SameRing (dequeued s) t)

/-- RX_BYTE moves the queue only by the PUT of a Command (R65, R71). -/
theorem rxByteBody_queueMove (b : Byte) (s : State) : QueueMove s (rxByteBody b s) := by
  obtain ⟨-, -, same | ⟨f, s1, ne, room, same, ht⟩⟩ := receive_shape b s
  · exact .kept (same.sameRing.trans (respond_sameRing _ _ _))
  · refine .stored f ne room ((same.sameRing.enqueued f).trans ?_)
    rw [← ht]
    exact respond_sameRing _ _ _

theorem putBody_queueMove (h : Handle) (s : State) : QueueMove s (putBody h s) := by
  unfold putBody
  split
  · exact .kept (respond_sameRing _ _ s)
  · next ne =>
    cases room : putFailure s.status with
    | none => rw [enqueue_stored room]; exact .stored h ne room (respond_sameRing _ _ _)
    | some c => rw [enqueue_refused room]; exact .kept (respond_sameRing _ _ s)

theorem getBody_queueMove (s : State) : QueueMove s (getBody s) := by
  unfold getBody
  split
  · exact .kept (respond_sameRing _ _ s)
  · next some => exact .taken some (respond_sameRing _ _ _)

theorem allocBody_queueMove (n : Len) (s : State) : QueueMove s (allocBody n s) := by
  unfold allocBody
  rcases poolAlloc_cases n s with ⟨e, h⟩ | ⟨_, e, k, -, -, h⟩ <;> rw [h] <;>
    exact .kept (respond_sameRing _ _ { s with env := e, mem := _ })

theorem deallocBody_queueMove (h : Handle) (s : State) : QueueMove s (deallocBody h s) := by
  unfold deallocBody
  by_cases c : h = 0x0000#16 ∨ Memory.live s.mem h.toNat = false
  · rw [poolFree_warning c]
    exact .kept (respond_sameRing _ _ s)
  · rw [poolFree, if_neg c]
    exact .kept (respond_sameRing _ _ { s with mem := _ })

/-- Every operation but RESET moves the queue as an Enqueue, as a GET, or not at all (R43). -/
theorem bodyOf_queueMove {i : Instr} (reset : i ≠ .reset) (s : State) : QueueMove s (bodyOf i s) := by
  cases i with
  | reset => exact absurd rfl reset
  | nop => exact .kept (respond_sameRing _ _ s)
  | getStatus => exact .kept (respond_sameRing _ _ s)
  | rxByte b => exact rxByteBody_queueMove b s
  | put h => exact putBody_queueMove h s
  | get => exact getBody_queueMove s
  | alloc n => exact allocBody_queueMove n s
  | dealloc h => exact deallocBody_queueMove h s

/-! ## The queue of the states a run reaches -/

/-- An Enqueue is admitted exactly where there is room (R29 item 4, R86). -/
theorem QueueInv.putFailure_none_iff {s : State} (inv : QueueInv s) :
    putFailure s.status = none ↔ s.size < s.cap := by
  rw [putFailure_eq_none, inv.room_iff]

/-- A STATUS other than EMPTY means that there is a handle (R29 item 4). -/
theorem QueueInv.size_pos {s : State} (inv : QueueInv s) (some : s.status ≠ 0x00#8) : 0 < s.size :=
  Nat.pos_of_ne_zero fun zero => some (inv.empty_iff.2 zero)

theorem QueueInv.move {s t : State} (inv : QueueInv s) (h : QueueMove s t) : QueueInv t := by
  cases h with
  | kept same => exact inv.sameRing same
  | stored f ne room same => exact (inv.enqueued ne (inv.putFailure_none_iff.1 room)).sameRing same
  | taken some same => exact (inv.dequeued (inv.size_pos some)).sameRing same

/-- There is a capacity, and in RUN the queue meets its invariant: the part of R29 that every step keeps. The capacity
is what a RESET from OFF builds the queue from. -/
def RunQueue (s : State) : Prop := 0 < s.cap ∧ (s.mode = .run → QueueInv s)

theorem QueueInv.runQueue {s : State} (inv : QueueInv s) : RunQueue s := ⟨inv.1, fun _ => inv⟩

theorem RunQueue.congr {s t : State} (inv : RunQueue s) (mode : t.mode = s.mode) (same : SameRing s t) :
    RunQueue t := by
  obtain ⟨pos, queue⟩ := inv
  exact ⟨same.1 ▸ pos, fun run => (queue (mode ▸ run)).sameRing same⟩

/-- RESET builds an empty queue, or ends in OFF (R117, R120). -/
theorem resetBody_runQueue {s : State} (pos : 0 < s.cap) : RunQueue (resetBody s) := by
  obtain ⟨e, he⟩ := drawBuild_shape s
  unfold resetBody
  split
  · next s1 draw =>
    rw [draw] at he
    subst he
    exact ((constructed_queueInv (by exact pos)).sameRing (respond_sameRing _ _ _)).runQueue
  · next s1 draw =>
    rw [draw] at he
    subst he
    refine ⟨?_, fun run => ?_⟩
    · rw [respond_cap, halted_cap]
      exact pos
    · rw [respond_mode, halted_mode] at run
      cases run

theorem QueueInv.bodyOf {s : State} (inv : QueueInv s) (i : Instr) : RunQueue (bodyOf i s) := by
  by_cases reset : i = .reset
  · subst reset
    exact resetBody_runQueue inv.1
  · exact (inv.move (bodyOf_queueMove reset s)).runQueue

/-- A transaction that ends in an error code alone keeps the queue (R107). -/
theorem RunQueue.raise {s : State} (inv : RunQueue s) (c : Code) : RunQueue (raise c s) :=
  inv.congr (respond_mode _ _ _) (respond_sameRing _ _ _)

theorem RunQueue.exec {i : Instr} {s t : State} (inv : RunQueue s) (h : exec i s = .next t) : RunQueue t := by
  rcases exec_next h with ⟨serving, rfl⟩ | ⟨-, rfl, -, rfl⟩ | ⟨-, -, rfl⟩
  · exact (inv.2 serving.1).bodyOf i
  · exact resetBody_runQueue inv.1
  · exact inv.raise _

theorem RunQueue.runWord {w : Word} {s t : State} (inv : RunQueue s) (h : runWord w s = .next t) : RunQueue t := by
  unfold Machine.runWord at h
  split at h
  · exact inv.exec h
  · cases h
    exact inv.raise _

/-- Every step keeps the queue invariant: taking the request into service leaves the queue alone (R29, R41). -/
theorem RunQueue.step {s t : State} (inv : RunQueue s) (h : step s = .next t) : RunQueue t := by
  rcases step_cases h with ⟨-, rfl⟩ | ⟨c, w, rest, serves, tick, -, -, ht⟩
  · exact inv
  · exact (inv.congr (by simp) (by simp [SameRing, SameQueue])).runWord ht

theorem reset_queueInv : QueueInv State.reset :=
  (constructed_queueInv (s := State.reset) (Nat.succ_pos _)).sameRing (.refl _)

/-- In every state a run reaches in RUN the queue invariant holds: no step and nothing the environment does breaks it
(R29). -/
theorem Reached.runQueue {s : State} (h : Reached s) : RunQueue s := by
  induction h with
  | reset => exact reset_queueInv.runQueue
  | step _ h ih => exact ih.step h
  | issued c w _ ih => exact ih.congr (by simp [issue]) (by simp [SameRing, SameQueue, issue])
  | chosen e _ ih => exact ih
  | @written s h m f pay _ ih =>
    obtain ⟨mem, hm, -⟩ := ownerWrites_shape h m f pay s
    rw [hm]
    exact ih

theorem Reached.queueInv {s : State} (h : Reached s) (run : s.mode = .run) : QueueInv s := h.runQueue.2 run

/-! ## A null slot -/

theorem readSlot_of_getElem? {i : Nat} {s : State} {h : Handle} (hs : s.slots[i]? = some h) : readSlot i s = h := by
  rw [readSlot, hs, Option.getD_some]

/-- A served GET on a STATUS other than EMPTY answers Ok with the handle at the old TAIL (R88). -/
theorem exec_get_taken {s : State} (serving : Serving .get s) (some : s.status ≠ 0x00#8) :
    exec .get s = .next (answer (0x00#8 ++ (dequeued s).status ++ readSlot s.tail s) (dequeued s)) := by
  have body : bodyOf .get s = respond .ok (readSlot s.tail s) (dequeued s) := if_neg some
  rw [exec_serving serving, body, respond_run (by simpa using serving.1), Code.num]

/-- A served DEALLOC of a null or not-live handle is a warning and changes nothing (R79, R81). -/
theorem exec_dealloc_warning {s : State} {h : Handle} (serving : Serving (.dealloc h) s)
    (c : h = 0x0000#16 ∨ Memory.live s.mem h.toNat = false) :
    exec (.dealloc h) s = .next (answer (0x40#8 ++ s.status ++ 0x0000#16) s) := by
  have body : bodyOf (.dealloc h) s = respond .doubleFreeWarning 0x0000#16 s := by
    rw [bodyOf, deallocBody, poolFree_warning c]
  rw [exec_serving serving, body, respond_run serving.1, Code.num]

/-- Settles O24: GET answers what the slot at TAIL holds; the invariant puts a non-null handle there, and every reached
state in RUN meets it. -/
theorem nullSlotReadsAsNullHandle : Obligations.NullSlotReadsAsNullHandle := by
  refine ⟨fun s serving some null => ⟨_, exec_get_taken serving some, ?_⟩,
    fun s inv some => inv.tail_slot (inv.size_pos some), fun s h run => h.queueInv run,
    fun s serving => exec_dealloc_warning serving (.inl rfl)⟩
  have rsp := answer_rsp (0x00#8 ++ (dequeued s).status ++ readSlot s.tail s) (dequeued s)
  rw [dequeued_active] at rsp
  rw [rsp, answer_status, readSlot_of_getElem? null]

/-! ## The two conditions for FULL -/

theorem statusAfterPut_eq_full (cap size head tail : Nat) :
    statusAfterPut cap size head tail = 0x02#8 ↔ size = cap ∨ head = tail := by
  unfold statusAfterPut
  split
  · next full => exact iff_of_true rfl full
  · next partly => exact iff_of_false (by decide) partly

/-- An Enqueue succeeds only by storing the handle (R86). -/
theorem enqueue_ok {s t : State} {h : Handle} (e : enqueue h s = (.ok, t)) :
    putFailure s.status = none ∧ t = enqueued h s := by
  cases room : putFailure s.status with
  | none =>
    rw [enqueue_stored room] at e
    cases e
    exact ⟨rfl, rfl⟩
  | some c =>
    rw [enqueue_refused room] at e
    cases e
    rcases putFailure_ne_ok room with h | h <;> cases h

/-- Counting at least one and at most C slots from TAIL comes back to TAIL exactly at C. -/
theorem ring_index_eq_start_iff {cap tail n : Nat} (lt : tail < cap) (pos : 0 < n) (le : n ≤ cap) :
    (tail + n) % cap = tail ↔ n = cap := by
  constructor
  · intro back
    by_contra ne
    have zero : n = 0 := ring_index_inj (cap := cap) (tail := tail) (by omega) (by omega)
      (by rw [back, Nat.add_zero, Nat.mod_eq_of_lt lt])
    omega
  · rintro rfl
    rw [Nat.add_mod_right, Nat.mod_eq_of_lt lt]

/-- After an Enqueue HEAD is the new SIZE of slots past TAIL, whatever handle was stored. -/
theorem QueueInv.enqueued_head_eq {s : State} (inv : QueueInv s) (h : Handle) :
    (Machine.enqueued h s).head = (s.tail + (s.size + 1)) % s.cap := by
  rw [enqueued_head, nextIndex, inv.head_eq, Nat.mod_add_mod, Nat.add_assoc]

/-- Settles O25: STATUS is FULL by the rule of R86; HEAD is SIZE slots past TAIL, and with 1 to C handles that is TAIL
itself exactly at C. -/
theorem fullConditionsCoincide : Obligations.FullConditionsCoincide := by
  refine ⟨fun s t h e => ?_, fun s t h inv e => ?_, fun s h run => h.queueInv run⟩
  · obtain ⟨-, rfl⟩ := enqueue_ok e
    exact statusAfterPut_eq_full _ _ _ _
  · obtain ⟨admitted, rfl⟩ := enqueue_ok e
    have room := inv.putFailure_none_iff.1 admitted
    have head := inv.enqueued_head_eq h
    obtain ⟨-, -, -, tail, -⟩ := inv
    rw [head, enqueued_tail, enqueued_size, enqueued_cap, sizeUp_of_lt room]
    exact ⟨Nat.succ_pos _, ring_index_eq_start_iff tail (Nat.succ_pos _) room⟩

end Machine

end Sys2Proof

/-! PROOFS. Family 70_reset_and_hazards: what has a step in OFF (R118). -/

namespace Sys2Proof

namespace Machine

/-- The word of RESET (R53). -/
theorem encode_reset : encode .reset = 0x10000000#32 := by decide

/-- In OFF every operation but RESET on port K is stopped by its own check (R118). -/
theorem exec_off {i : Instr} {s : State} (off : s.mode = .off) (other : ¬(i = .reset ∧ s.active = .control)) :
    exec i s = .fault .noStepWhileOff := by
  rw [exec_eq_transact, transact_off _ off other]

theorem exec_reset_off {s : State} (off : s.mode = .off) (port : s.active = .control) :
    exec .reset s = .next (bodyOf .reset s) := by
  rw [exec_eq_transact, transact_off_reset _ off port]

theorem hasStep_off {s : State} (off : s.mode = .off) (c : Port) :
    hasStep s c = true ↔ c = .control ∧ s.portK.reqs.head? = some 0x10000000#32 := by
  rw [hasStep, off]
  simp only [Bool.and_eq_true, decide_eq_true_eq]
  exact and_congr_right fun hc => by rw [hc]; rfl

/-- In OFF no port has a step but port K, and port K only with the word RESET outstanding (R118). -/
theorem servable_off {s : State} (off : s.mode = .off) :
    servable s = if s.portK.reqs.head? = some 0x10000000#32 then [.control] else [] := by
  split <;> next hk => simp [servable, hasStep_off off, hk]

/-- With requests pending none of which has a step, the block is stuck (log entry 11). -/
theorem step_of_no_servable {s : State} (stuck : servable s = []) (waiting : ∃ c, (s.port c).reqs ≠ []) :
    step s = .fault .noStepWhileOff := by
  have anyPending : pending s .producer || pending s .consumer || pending s .control := by
    obtain ⟨c, hc⟩ := waiting
    have hp : pending s c = true := eq_true_of_ne_false (mt not_pending_iff.1 hc)
    cases c <;> simp [hp]
  rw [step, stuck]
  exact if_pos anyPending

/-- In OFF the word RESET at the head of port K is served, whatever else is pending (R118). -/
theorem step_off_reset {s : State} {rest : List Word} (off : s.mode = .off)
    (hr : s.portK.reqs = 0x10000000#32 :: rest) : step s = exec .reset (inService .control rest s) := by
  have only : servable s = [.control] := by rw [servable_off off, hr]; rfl
  rw [step_of_servable only hr, ← encode_reset, runWord_encode]

/-- In OFF a step that answers a next state is idle or a RESET on port K, and leaves the other ports alone. -/
theorem step_off_port_other {s t : State} (off : s.mode = .off) (h : step s = .next t) {d : Port} (hd : d ≠ .control) :
    t.port d = s.port d := by
  rcases step_cases h with ⟨-, rfl⟩ | ⟨c, -, -, -, -, hs, -, -⟩
  · rfl
  · obtain ⟨rest, hr⟩ := List.head?_eq_some_iff.1 ((hasStep_off off c).1 hs).2
    rw [step_off_reset off hr, exec_reset_off (by simpa using off) (inService_active ..)] at h
    cases h
    rw [bodyOf_port_other _ _ (by simpa using hd), inService_port_other _ _ _ hd]

/-- Settles O10: an operation is stopped by its own check; a step is decided by what port K holds first, since no other
port has a step in OFF. -/
theorem offAcceptsOnlyReset : Obligations.OffAcceptsOnlyReset := by
  refine fun s off => ⟨fun i other => exec_off off other, fun waiting head => ?_,
    fun rest hr => step_off_reset off hr, fun t h => ?_⟩
  · exact step_of_no_servable (by rw [servable_off off, if_neg head]) waiting
  · have port {d : Port} (hd : d ≠ .control) := congrArg PortState.reqs (step_off_port_other off h hd)
    exact ⟨port (d := .producer) (by decide), port (d := .consumer) (by decide)⟩

end Machine

end Sys2Proof

/-! PROOFS. Request words and response words (R52 to R56): the decoder and the encoder are inverse to one another, and
the words the decoder refuses are exactly those R58 calls illegal. -/

namespace Sys2Proof

/-- An operation without an operand is read from ARG = 0 only (R54). -/
theorem decodeNoOperand_eq_instr {i j : Instr} {arg : BitVec 16} (h : decodeNoOperand i arg = .instr j) :
    arg = 0#16 ∧ j = i := by
  unfold decodeNoOperand at h
  split at h
  · next zero => exact ⟨zero, (Decoded.instr.inj h).symm⟩
  · cases h

/-- RX_BYTE is read from the ARG that holds its byte and zeros above it only (R54). -/
theorem decodeRxByte_eq_instr {j : Instr} {arg : BitVec 16} (h : decodeRxByte arg = .instr j) :
    ∃ b : Byte, arg = b.setWidth 16 ∧ j = .rxByte b := by
  unfold decodeRxByte at h
  split at h
  · next zero =>
    refine ⟨arg.extractLsb' 0 8, BitVec.eq_of_toNat_eq ?_, (Decoded.instr.inj h).symm⟩
    have high := congrArg BitVec.toNat zero
    have := arg.isLt
    simp only [BitVec.extractLsb'_toNat, BitVec.toNat_setWidth, BitVec.toNat_ofNat, Nat.shiftRight_eq_div_pow]
      at high ⊢
    omega
  · cases h

/-- The fields of a word that decodes to an operation are the operation's (R52 to R54). -/
theorem decode_eq_instr {w : Word} {i : Instr} (h : decode w = .instr i) :
    opField w = opNumber i ∧ rsvField w = 0#12 ∧ argField w = argOf i := by
  unfold decode at h
  split at h
  · next rsv =>
    have fields (op : (opField w).toNat = (opNumber i).toNat) (arg : argField w = argOf i) :
        opField w = opNumber i ∧ rsvField w = 0#12 ∧ argField w = argOf i :=
      ⟨BitVec.eq_of_toNat_eq op, rsv, arg⟩
    have plain {k : Instr} (h : decodeNoOperand k (argField w) = .instr i)
        (op : (opField w).toNat = (opNumber k).toNat) (zero : argOf k = 0#16) :
        opField w = opNumber i ∧ rsvField w = 0#12 ∧ argField w = argOf i := by
      obtain ⟨arg, rfl⟩ := decodeNoOperand_eq_instr h
      exact fields op (arg.trans zero.symm)
    split at h
    case h_1 op => exact plain h op rfl
    case h_2 op => exact plain h op rfl
    case h_3 op =>
      obtain ⟨b, arg, rfl⟩ := decodeRxByte_eq_instr h
      exact fields op arg
    case h_4 op => cases h; exact fields op rfl
    case h_5 op => exact plain h op rfl
    case h_6 op => exact plain h op rfl
    case h_7 op => cases h; exact fields op rfl
    case h_8 op => cases h; exact fields op rfl
    case h_9 => cases h
  · cases h

/-- A word that decodes to an operation is that operation's word: each of its three fields is (R52 to R54). -/
theorem encode_of_decode {w : Word} {i : Instr} (h : decode w = .instr i) : encode i = w := by
  obtain ⟨op, rsv, arg⟩ := decode_eq_instr h
  calc encode i = opNumber i ++ 0x000#12 ++ argOf i := rfl
    _ = opField w ++ rsvField w ++ argField w := by rw [op, rsv, arg]
    _ = w := (word_eq_fields w).symm

/-- Settles O1: `decode_encode`. -/
theorem decodeOfEncodeIsTheInstruction : Obligations.DecodeOfEncodeIsTheInstruction := decode_encode

/-- Settles O2: `encode_of_decode`. -/
theorem onlyItsWordDecodesToAnInstruction : Obligations.OnlyItsWordDecodesToAnInstruction := fun _ _ => encode_of_decode

namespace Machine

/-- A word the decoder refuses has a reserved OP, a non-zero RSV, or a set bit of ARG that must be zero (R58). -/
theorem illegalWord_of_decode {w : Word} {why : Illegal} (h : decode w = .illegal why) : IllegalWord w := by
  unfold decode at h
  split at h
  · next rsv =>
    have noOperand {k : Instr} (h : decodeNoOperand k (argField w) = .illegal why)
        (op : (opField w).toNat ∈ [0, 1, 4, 5]) : IllegalWord w := by
      refine .inr (.inr (.inl ⟨op, fun zero => ?_⟩))
      rw [decodeNoOperand, if_pos (show argField w = 0#16 from zero)] at h
      cases h
    split at h
    case h_1 op => exact noOperand h (by rw [op]; decide)
    case h_2 op => exact noOperand h (by rw [op]; decide)
    case h_3 op =>
      refine .inr (.inr (.inr ⟨op, fun zero => ?_⟩))
      rw [decodeRxByte, if_pos (by rw [argField_high]; exact zero)] at h
      cases h
    case h_4 => cases h
    case h_5 op => exact noOperand h (by rw [op]; decide)
    case h_6 op => exact noOperand h (by rw [op]; decide)
    case h_7 => cases h
    case h_8 => cases h
    case h_9 h0 h1 h2 h3 h4 h5 h6 h7 =>
      refine .inl ?_
      change 8 ≤ (opField w).toNat
      simp only [imp_false] at *
      omega
  · next rsv => exact .inr (.inl rsv)

/-- Settles O3: each refusal names one of R58's clauses, and each clause is refused (`IllegalWord.decode_refuses`). -/
theorem decoderRefusesExactlyTheIllegalWords : Obligations.DecoderRefusesExactlyTheIllegalWords :=
  fun _ => ⟨fun ⟨_, h⟩ => illegalWord_of_decode h, fun h => h.decode_refuses⟩

/-- Settles O4, by evaluation of the decoder on the eleven words. -/
theorem specWordsDecode : Obligations.SpecWordsDecode := by
  unfold Obligations.SpecWordsDecode
  decide

/-- STAT of a response word (R56). -/
@[simp] theorem statusField_responseWord (c : Code) (st : Byte) (d : Handle) :
    statusField (responseWord c st d) = st := by
  have := c.num.isLt
  have := st.isLt
  have := d.isLt
  apply BitVec.eq_of_toNat_eq
  simp only [statusField, BitVec.extractLsb'_toNat, Nat.shiftRight_eq_div_pow, responseWord_toNat]
  omega

/-- Settles O5: the word's number and the lemma of each of its fields. -/
theorem responseWordHoldsItsFields : Obligations.ResponseWordHoldsItsFields := fun c st d =>
  ⟨responseWord_toNat c st d, resultField_responseWord c st d, statusField_responseWord c st d,
    dataField_responseWord c st d⟩

end Machine

end Sys2Proof

/-! PROOFS. Which request a step serves (R41, R42, R51). -/

namespace Sys2Proof

namespace Machine

/-- In RUN every pending request has a step (R41). -/
theorem hasStep_run {s : State} (run : s.mode = .run) (c : Port) : hasStep s c = pending s c := by
  rw [hasStep, run]

theorem mem_servable_run {s : State} (run : s.mode = .run) {c : Port} :
    c ∈ servable s ↔ (s.port c).reqs ≠ [] := by
  rw [mem_servable, hasStep_run run, pending]
  simp

/-- With no request pending the block holds its state, in either mode (R115). -/
theorem step_idle {s : State} (idle : ∀ c, (s.port c).reqs = []) : step s = .next s := by
  have none : servable s = [] := by
    rw [List.eq_nil_iff_forall_not_mem]
    intro c hc
    obtain ⟨w, rest, hr⟩ := hasStep_reqs (mem_servable.1 hc)
    rw [idle c] at hr
    cases hr
  have quiet (c : Port) : pending s c = false := not_pending_iff.2 (idle c)
  rw [step, none]
  simp [quiet]

/-- The environment's scripted choice of a candidate is the one that is served (R42). -/
theorem chooseServe_scripted {s : State} {first c : Port} {rest more : List Port} (script : s.env.serves = c :: more)
    (candidate : c ∈ first :: rest) :
    chooseServe first rest s = (c, { s with env := { s.env with serves := more } }) := by
  rw [chooseServe, drawServe_scripted script]
  exact if_pos candidate

/-- In RUN, with several ports pending, the port the environment chooses is served (R42). -/
theorem step_chosen {s : State} {c d : Port} {w : Word} {rest : List Word} {more : List Port} (run : s.mode = .run)
    (hc : (s.port c).reqs = w :: rest) (hdc : d ≠ c) (hd : (s.port d).reqs ≠ [])
    (script : s.env.serves = c :: more) :
    step s = runWord w (inService c rest { s with env := { s.env with serves := more } }) := by
  have cIn : c ∈ servable s := (mem_servable_run run).2 (by rw [hc]; exact List.cons_ne_nil _ _)
  have dIn : d ∈ servable s := (mem_servable_run run).2 hd
  unfold step
  split
  · next none => rw [none] at cIn; cases cIn
  · next p one =>
    rw [one, List.mem_singleton] at cIn dIn
    exact absurd (dIn.trans cIn.symm) hdc
  · next p q others several =>
    rw [several] at cIn
    rw [chooseServe_scripted script cIn]
    exact serve_of_reqs (by simpa using hc)

/-- In RUN a request word's transaction answers a next state (R44). -/
theorem runWord_run {s : State} (run : s.mode = .run) (w : Word) : ∃ t, runWord w s = .next t := by
  unfold runWord
  split
  · next i _ => exact (exec_run run).elim (fun h => ⟨_, h⟩) fun h => ⟨_, h⟩
  · exact ⟨_, rfl⟩

/-- In RUN the service of a port answers a next state, whether or not it has a request (R44). -/
theorem serve_run {s : State} (run : s.mode = .run) (c : Port) : ∃ t, serve c s = .next t := by
  cases hr : (s.port c).reqs with
  | nil => exact ⟨s, by rw [serve, fetch, hr]⟩
  | cons w rest =>
    rw [serve_of_reqs hr]
    exact runWord_run (by simpa using run) w

/-- In RUN every step answers a next state (R44, R103). -/
theorem step_run {s : State} (run : s.mode = .run) : ∃ t, step s = .next t := by
  unfold step
  split
  · next none =>
    have quiet (c : Port) : pending s c = false := by
      rw [not_pending_iff]
      by_contra h
      have := (mem_servable_run run).2 h
      rw [none] at this
      cases this
    exact ⟨s, by simp [quiet]⟩
  · next c _ => exact serve_run run c
  · next c d others _ =>
    obtain ⟨-, serves, tick, shape⟩ := chooseServe_spec c (d :: others) s
    have kept : (chooseServe c (d :: others) s).2.mode = .run := by rw [shape]; exact run
    exact serve_run kept _

/-- Settles O6: the one pending port is the one that is served, and its word runs as its operation. -/
theorem stepRunsTheDecodedRequest : Obligations.StepRunsTheDecodedRequest := by
  intro s c w rest i run only h
  rw [step_of_servable (servable_only run only) only.1, runWord, h]

/-- Settles O7: `step_chosen`, and what `runWord` does with either kind of word. -/
theorem anyPendingPortCanBeServedNext : Obligations.AnyPendingPortCanBeServedNext := by
  rintro s c d w rest more run hc hdc hd script s1 rfl
  have chosen := step_chosen run hc hdc hd script
  refine ⟨chosen, fun i h => ?_, fun why h => ?_⟩
  · rw [chosen, runWord, h]
  · have illegal := illegalWord_of_decode h
    rw [chosen, runWord_inService_illegalOn rest (by exact run) (.inl illegal)]

/-- Settles O11. -/
theorem runningBlockNeverStops : Obligations.RunningBlockNeverStops :=
  ⟨fun _ => step_idle, fun _ => step_run⟩

end Machine

end Sys2Proof

/-! PROOFS. What each operation can do before its response, said once, and that every transaction ends in one (R44, R51,
R102). -/

namespace Sys2Proof

namespace Machine

/-! ## The effect of an operation -/

/-- The ports and the port in service are unchanged. -/
def SamePorts (s u : State) : Prop := u.active = s.active ∧ ∀ d, u.port d = s.port d

theorem SamePorts.refl (s : State) : SamePorts s s := ⟨rfl, fun _ => rfl⟩

theorem SamePorts.setPool (s : State) (m : Memory) (e : Env) : SamePorts s { s with mem := m, env := e } :=
  ⟨rfl, fun d => by cases d <;> rfl⟩

theorem SameButDecoder.samePorts {s u : State} (h : SameButDecoder s u) : SamePorts s u := by
  rw [h]
  exact ⟨rfl, fun d => by cases d <;> rfl⟩

/-- RX_BYTE's own rule leaves the capacity and the ports alone; `receive_mode` is the same for MODE (R43). -/
theorem receive_outside (b : Byte) (s : State) :
    (receive b s).2.2.cap = s.cap ∧ SamePorts s (receive b s).2.2 := by
  obtain ⟨-, -, same | ⟨f, s1, -, -, same, ht⟩⟩ := receive_shape b s
  · exact ⟨same.sameRing.1, same.samePorts⟩
  · obtain ⟨active, port⟩ := same.samePorts
    rw [ht]
    exact ⟨same.sameRing.1, active, fun d => (enqueued_port f s1 d).trans (port d)⟩

/-- What RESET does, whatever its draw: the block is constructed, or it is halted; of the environment's choices the
construction's draw is used up (R117). -/
theorem resetBody_cases (s : State) :
    ∃ e : Env, e.allocs = s.env.allocs ∧ e.serves = s.env.serves ∧
      (resetBody s = respond .ok 0x0000#16 (constructed { s with env := e }) ∨
       resetBody s = respond .allocationError 0x0000#16 (halted { s with env := e })) := by
  have draw : ∃ built e, drawBuild s = (built, { s with env := e }) ∧ e.allocs = s.env.allocs ∧
      e.serves = s.env.serves := by
    unfold drawBuild
    split <;> exact ⟨_, _, rfl, rfl, rfl⟩
  obtain ⟨built, e, draw, allocs, serves⟩ := draw
  refine ⟨e, allocs, serves, ?_⟩
  unfold resetBody
  rw [draw]
  cases built
  · exact .inr rfl
  · exact .inl rfl

/-- `Effect s i r v u`: from `s` the operation `i` can leave `u` and respond there with the code `r` and DATA `v`. -/
inductive Effect (s : State) : Instr → Code → Handle → State → Prop where
  /-- Nothing but the response: NOP and GET_STATUS, every failure that writes no state (R107), and the release of a
  handle that is not live. The code is InvalidArgument only for PUT of the null handle and on a wrong port. -/
  | kept {i : Instr} {r : Code}
      (why : r = .invalidArgument → i = .put 0x0000#16 ∨ i.wellFormedOn s.active = false) : Effect s i r 0x0000#16 s
  | constructed {e : Env} (port : s.active = .control) :
      Effect s .reset .ok 0x0000#16 (constructed { s with env := e })
  | halted {e : Env} (port : s.active = .control) :
      Effect s .reset .allocationError 0x0000#16 (halted { s with env := e })
  | received {b : Byte} {r : Code} {v : Handle} {u : State} (e : receive b s = (r, v, u)) : Effect s (.rxByte b) r v u
  | stored {h : Handle} (ne : h ≠ 0x0000#16) (room : putFailure s.status = none) :
      Effect s (.put h) .ok 0x0000#16 (enqueued h s)
  | taken (some : s.status ≠ statusEmpty) : Effect s .get .ok (readSlot s.tail s) (dequeued s)
  | allocFailed {n : Len} {e : Env} : Effect s (.alloc n) .allocationError 0x0000#16 { s with env := e }
  | allocated {n : Len} {h : Handle} {e : Env} {k : Nat} (ne : h ≠ 0x0000#16)
      (free : Memory.live s.mem h.toNat = false) :
      Effect s (.alloc n) .ok h { s with env := e, mem := Memory.insert s.mem h.toNat (freshRecord k n) }
  | released {h : Handle} (ne : h ≠ 0x0000#16) (live : Memory.live s.mem h.toNat = true) :
      Effect s (.dealloc h) .ok 0x0000#16 { s with mem := Memory.erase s.mem h.toNat }

theorem putBody_effect (h : Handle) (s : State) : ∃ r v u, Effect s (.put h) r v u ∧ putBody h s = respond r v u := by
  by_cases null : h = 0x0000#16
  · exact ⟨_, _, _, .kept fun _ => .inl (by rw [null]), if_pos null⟩
  · rw [putBody, if_neg null]
    cases room : putFailure s.status with
    | none => rw [enqueue_stored room]; exact ⟨_, _, _, .stored null room, rfl⟩
    | some c =>
      rw [enqueue_refused room]
      refine ⟨c, _, _, .kept fun bad => ?_, rfl⟩
      rcases putFailure_ne_ok room with rfl | rfl <;> cases bad

theorem getBody_effect (s : State) : ∃ r v u, Effect s .get r v u ∧ getBody s = respond r v u := by
  by_cases empty : s.status = statusEmpty
  · exact ⟨_, _, _, .kept (r := .queueEmpty) nofun, if_pos empty⟩
  · exact ⟨_, _, _, .taken empty, if_neg empty⟩

theorem allocBody_effect (n : Len) (s : State) :
    ∃ r v u, Effect s (.alloc n) r v u ∧ allocBody n s = respond r v u := by
  rw [allocBody]
  rcases poolAlloc_cases n s with ⟨e, h⟩ | ⟨w, e, k, ne, free, h⟩ <;> rw [h]
  · exact ⟨_, _, _, .allocFailed, rfl⟩
  · exact ⟨_, _, _, .allocated ne free, rfl⟩

theorem deallocBody_effect (h : Handle) (s : State) :
    ∃ r v u, Effect s (.dealloc h) r v u ∧ deallocBody h s = respond r v u := by
  rw [deallocBody]
  by_cases bad : h = 0x0000#16 ∨ Memory.live s.mem h.toNat = false
  · rw [poolFree_warning bad]
    exact ⟨_, _, _, .kept (r := .doubleFreeWarning) nofun, rfl⟩
  · obtain ⟨ne, live⟩ := not_or.1 bad
    rw [poolFree_live ne (eq_true_of_ne_false live)]
    exact ⟨_, _, _, .released ne (eq_true_of_ne_false live), rfl⟩

theorem resetBody_effect {s : State} (port : s.active = .control) :
    ∃ r v u, Effect s .reset r v u ∧ resetBody s = respond r v u := by
  obtain ⟨e, -, -, h | h⟩ := resetBody_cases s
  · exact ⟨_, _, _, .constructed port, h⟩
  · exact ⟨_, _, _, .halted port, h⟩

/-- An operation on a port that accepts it has one of its effects. -/
theorem bodyOf_effect {i : Instr} {s : State} (port : i.wellFormedOn s.active = true) :
    ∃ r v u, Effect s i r v u ∧ bodyOf i s = respond r v u := by
  cases i with
  | nop => exact ⟨_, _, _, .kept (r := .ok) nofun, rfl⟩
  | getStatus =>
    refine ⟨statusCode s.status, _, _, .kept fun bad => ?_, rfl⟩
    unfold statusCode at bad
    split_ifs at bad
  | reset => exact resetBody_effect (by revert port; cases s.active <;> decide)
  | rxByte b => exact ⟨_, _, _, .received rfl, rfl⟩
  | put h => exact putBody_effect h s
  | get => exact getBody_effect s
  | alloc n => exact allocBody_effect n s
  | dealloc h => exact deallocBody_effect h s

/-- Everything an operation that answers a next state can be: one of its effects, and a response. -/
theorem exec_effect {i : Instr} {s t : State} (h : exec i s = .next t) :
    ∃ r v u, Effect s i r v u ∧ t = respond r v u := by
  rcases exec_next h with ⟨serving, rfl⟩ | ⟨-, rfl, port, rfl⟩ | ⟨-, port, rfl⟩
  · exact bodyOf_effect serving.2
  · exact resetBody_effect port
  · exact ⟨_, _, _, .kept fun _ => .inr port, rfl⟩

/-- No operation writes a port but by its response (R43, R51). -/
theorem Effect.samePorts {i : Instr} {r : Code} {v : Handle} {s u : State} (h : Effect s i r v u) : SamePorts s u := by
  cases h with
  | kept => exact .refl s
  | constructed => exact ⟨rfl, fun d => by rw [constructed_port, setEnv_port]⟩
  | halted => exact ⟨rfl, fun d => by rw [halted_port, setEnv_port]⟩
  | received e => rw [← show (receive _ s).2.2 = u by rw [e]]; exact (receive_outside _ s).2
  | stored => exact ⟨rfl, fun d => enqueued_port _ s d⟩
  | taken => exact ⟨rfl, fun d => dequeued_port s d⟩
  | allocFailed => exact .setPool s _ _
  | allocated => exact .setPool s _ _
  | released => exact .setPool s _ _

theorem Code.num_eq_invalidArgument {c : Code} (h : c.num = 0x81#8) : c = .invalidArgument := by
  cases c with
  | invalidArgument => rfl
  | ok | empty | partly | full | doubleFreeWarning | unknownCommand | allocationError | queueFull | queueEmpty
  | queueInvalid => exact absurd h (by decide)

/-- On a port that accepts it an operation answers InvalidArgument only if it is PUT of the null handle (R87, R102). -/
theorem Effect.invalidArgument {i : Instr} {v : Handle} {s u : State} (h : Effect s i .invalidArgument v u)
    (port : i.wellFormedOn s.active = true) : i = .put 0x0000#16 := by
  cases h with
  | kept why =>
    refine (why rfl).resolve_right fun wrong => ?_
    rw [port] at wrong
    cases wrong
  | @received b _ _ _ e =>
    obtain ⟨-, codes, -⟩ := receive_shape b s
    rw [e] at codes
    rcases codes with h | h | h | h <;> cases h

/-! ## Every transaction ends in a response -/

/-- After a response the port in service has it, and no other port has changed. -/
theorem SamePorts.respond {s u : State} (same : SamePorts s u) (r : Code) (v : Handle) :
    (respond r v u).port s.active = { s.port s.active with rsp := some (responseWord r (statOf u) v) } ∧
    ∀ d, d ≠ s.active → (Machine.respond r v u).port d = s.port d := by
  obtain ⟨active, port⟩ := same
  refine ⟨?_, fun d hd => ?_⟩
  · rw [← active, respond_port_self, active, port]
  · rw [respond_port_other _ _ _ (by rwa [active]), port]

/-- A request word's transaction leaves a response on the port in service, and its requests as they were (R51, R56). -/
theorem runWord_responds {w : Word} {s t : State} (h : runWord w s = .next t) :
    ∃ r, t.port s.active = { s.port s.active with rsp := some r } := by
  unfold runWord at h
  split at h
  · obtain ⟨r, v, u, effect, rfl⟩ := exec_effect h
    exact ⟨_, (effect.samePorts.respond r v).1⟩
  · cases h
    exact ⟨_, respond_port_self _ _ _⟩

/-- Settles O12: an operation in service has one of its effects, and its response word holds the effect's code. -/
theorem everyOperationCompletes : Obligations.EveryOperationCompletes := by
  intro i s serving
  obtain ⟨r, v, u, effect, body⟩ := bodyOf_effect serving.2
  refine ⟨_, responseWord r (statOf u) v, exec_serving serving, ?_, fun bad => ?_⟩
  · rw [body, (effect.samePorts.respond r v).1]
  · rw [resultField_responseWord] at bad
    obtain rfl := Code.num_eq_invalidArgument bad
    exact effect.invalidArgument serving.2

/-- Settles O13: a step is idle, or takes one request off its port and runs it; the transaction leaves a response there
(`runWord_responds`) and the other ports alone (`runWord_port_other`). -/
theorem stepServesOneRequest : Obligations.StepServesOneRequest := by
  intro s t run h
  refine (step_cases h).imp id ?_
  rintro ⟨c, w, rest, serves, tick, -, hr, ht⟩
  obtain ⟨r, responded⟩ := runWord_responds ht
  refine ⟨c, w, rest, r, hr, ?_, fun d hd => ?_⟩
  · rwa [inService_active, inService_port_self] at responded
  · rw [runWord_port_other (by simpa using run) ht (by simpa using hd), inService_port_other _ _ _ hd, setEnv_port]

end Machine

end Sys2Proof

/-! PROOFS. NOP and RESET (R116, R117), and a request on a port that does not accept it (R58). -/

namespace Sys2Proof

namespace Machine

/-- An operation in service whose effect keeps MODE answers its code's number, STATUS afterwards, and its DATA (R56). -/
theorem exec_answer {i : Instr} {s u : State} {n : Byte} {v : Handle} (r : Code) (serving : Serving i s)
    (body : bodyOf i s = respond r v u) (mode : u.mode = s.mode) (num : r.num = n := by rfl) :
    exec i s = .next (answer (n ++ u.status ++ v) u) := by
  rw [exec_serving serving, body, respond_run (mode.trans serving.1), num]

/-- Settles O9: `exec_misrouted`, with STATUS in STAT. -/
theorem wrongPortIsRejected : Obligations.WrongPortIsRejected := by
  intro i s run port
  rw [exec_misrouted run port, raise, respond_run run, Code.num]

/-- Settles O14: every port accepts NOP. -/
theorem nopAnswersOk : Obligations.NopAnswersOk := by
  intro s run
  have port : Instr.nop.wellFormedOn s.active = true := by cases s.active <;> rfl
  exact exec_answer .ok ⟨run, port⟩ rfl rfl

/-- RESET on port K has its step in either mode (R17, R118). -/
theorem exec_reset {s : State} (port : s.active = .control) : exec .reset s = .next (resetBody s) := by
  cases mode : s.mode with
  | off => exact exec_reset_off mode port
  | run => exact exec_serving ⟨mode, by rw [port]; rfl⟩

/-- A construction answers 0x00000000 (R117). -/
theorem respond_constructed (s : State) :
    respond .ok 0x0000#16 (constructed s) = answer 0x00000000#32 (constructed s) := by
  rw [respond_run (constructed_mode s), constructed_status]
  rfl

/-- A failed construction answers 0x80000000 (R56, R117). -/
theorem respond_halted (s : State) :
    respond .allocationError 0x0000#16 (halted s) = answer 0x80000000#32 (halted s) := by
  rw [respond_eq_answer, statOf_off (halted_mode s)]
  rfl

/-- A failed construction leaves values of the registers' widths in the queue's registers (R31). -/
theorem halted_widths (s : State) :
    (halted s).head < 2 ^ indexWidth s.cap ∧ (halted s).tail < 2 ^ indexWidth s.cap ∧
    (halted s).size < 2 ^ sizeWidth s.cap ∧ (halted s).slots.length = s.cap := by
  refine ⟨Nat.mod_lt _ (Nat.two_pow_pos _), Nat.mod_lt _ (Nat.two_pow_pos _), Nat.mod_lt _ (Nat.two_pow_pos _), ?_⟩
  simp [halted]

/-- The response to a request on port K leaves the other two ports alone. -/
theorem answer_ports_of_control {s u : State} (w : Word) (same : SamePorts s u) (port : s.active = .control) :
    (answer w u).portK = { s.portK with rsp := some w } ∧ (answer w u).portP = s.portP ∧
    (answer w u).portQ = s.portQ := by
  obtain ⟨active, ports⟩ := same
  have uPort : u.active = .control := active.trans port
  have self := answer_port_self w u
  rw [uPort, ports] at self
  have other {d : Port} (hd : d ≠ .control) : (answer w u).port d = s.port d := by
    rw [answer_port_other _ _ (by rwa [uPort]), ports]
  exact ⟨self, other (d := .producer) (by decide), other (d := .consumer) (by decide)⟩

theorem constructed_samePorts (s : State) (e : Env) : SamePorts s (constructed { s with env := e }) :=
  ⟨rfl, fun d => by rw [constructed_port, setEnv_port]⟩

theorem halted_samePorts (s : State) (e : Env) : SamePorts s (halted { s with env := e }) :=
  ⟨rfl, fun d => by rw [halted_port, setEnv_port]⟩

/-- Settles O15: the drawn success is `constructed`. -/
theorem successfulResetConstructsTheBlock : Obligations.SuccessfulResetConstructsTheBlock := by
  intro s rest port draw
  rw [exec_reset port, resetBody, drawBuild_scripted draw]
  exact congrArg Host.Outcome.next (respond_constructed _)

/-- Settles O16: the drawn failure is `halted`. -/
theorem failedResetTurnsTheBlockOff : Obligations.FailedResetTurnsTheBlockOff := by
  intro s rest port draw
  have body : resetBody s =
      respond .allocationError 0x0000#16 (halted { s with env := { s.env with builds := rest } }) := by
    rw [resetBody, drawBuild_scripted draw]
  rw [respond_halted] at body
  obtain ⟨portK, portP, portQ⟩ := answer_ports_of_control 0x80000000#32 (halted_samePorts s _) port
  obtain ⟨head, tail, size, slots⟩ := halted_widths { s with env := { s.env with builds := rest } }
  refine ⟨_, (exec_reset port).trans (congrArg _ body), answer_mode _ _, answer_cap _ _, answer_log _ _,
    answer_active _ _, portK, portP, portQ, ?_, ?_, ?_, ?_⟩
  · rwa [answer_head]
  · rwa [answer_tail]
  · rwa [answer_size]
  · rwa [answer_slots]

/-- Settles O17: `resetBody_cases` leaves `constructed` or `halted`, and both keep what they must. -/
theorem resetAlwaysAnswers : Obligations.ResetAlwaysAnswers := by
  intro s port
  obtain ⟨e, allocs, serves, body | body⟩ := resetBody_cases s
  · rw [respond_constructed] at body
    obtain ⟨portK, portP, portQ⟩ := answer_ports_of_control 0x00000000#32 (constructed_samePorts s e) port
    have queue (pos : 0 < s.cap) : QueueInv (answer 0x00000000#32 (constructed { s with env := e })) :=
      (constructed_queueInv (s := { s with env := e }) pos).congr (answer_cap _ _) (by simp [SameQueue])
    refine ⟨_, (exec_reset port).trans (congrArg _ body), answer_cap _ _, answer_log _ _, answer_active _ _,
      portP, portQ, by rw [portK], ?_, ?_, .inl ⟨answer_mode _ _, answer_size _ _, answer_status _ _, ?_,
      answer_mem _ _, by rw [portK], queue⟩⟩
    · rw [answer_env]; exact allocs
    · rw [answer_env]; exact serves
    · simp [DecoderIdle]
  · rw [respond_halted] at body
    obtain ⟨portK, portP, portQ⟩ := answer_ports_of_control 0x80000000#32 (halted_samePorts s e) port
    refine ⟨_, (exec_reset port).trans (congrArg _ body), answer_cap _ _, answer_log _ _, answer_active _ _,
      portP, portQ, by rw [portK], ?_, ?_, .inr ⟨answer_mode _ _, by rw [portK]⟩⟩
    · rw [answer_env]; exact allocs
    · rw [answer_env]; exact serves

end Machine

end Sys2Proof

/-! PROOFS. PUT, GET and GET_STATUS (R86 to R91), the order of the queue (R94), and the widths of its counters (R7). -/

namespace Sys2Proof

namespace Machine

/-! ## PUT -/

/-- A served PUT of a non-null handle on a STATUS that admits it stores the handle (R87). -/
theorem exec_put_stored {s : State} {h : Handle} (serving : Serving (.put h) s) (ne : h ≠ 0x0000#16)
    (room : putFailure s.status = none) :
    exec (.put h) s = .next (answer (0x00#8 ++ (enqueued h s).status ++ 0x0000#16) (enqueued h s)) := by
  have body : bodyOf (.put h) s = respond .ok 0x0000#16 (enqueued h s) := by
    rw [bodyOf, putBody, if_neg ne, enqueue_stored room]
  exact exec_answer .ok serving body (enqueued_mode h s)

/-- A served PUT of a non-null handle on a STATUS that refuses it answers why and changes nothing (R87). -/
theorem exec_put_refused {s : State} {h : Handle} {c : Code} {n : Byte} (serving : Serving (.put h) s)
    (ne : h ≠ 0x0000#16) (refused : putFailure s.status = some c) (num : c.num = n := by rfl) :
    exec (.put h) s = .next (answer (n ++ s.status ++ 0x0000#16) s) := by
  have body : bodyOf (.put h) s = respond c 0x0000#16 s := by
    rw [bodyOf, putBody, if_neg ne, enqueue_refused refused]
  exact exec_answer c serving body rfl num

theorem putFailure_full : putFailure 0x02#8 = some .queueFull := rfl

/-- INVALID and every unrecognized STATUS refuse an Enqueue (R86). -/
theorem putFailure_invalid {st : Byte} (ge : 3 ≤ st.toNat) : putFailure st = some .queueInvalid := by
  have ne (k : Byte) (lt : k.toNat < 3) : st ≠ k := fun e => by rw [e] at ge; omega
  rw [putFailure, if_neg (ne _ (by decide)), if_neg (not_or.2 ⟨ne _ (by decide), ne _ (by decide)⟩)]

/-- Settles O18: `exec_put_stored`, where `enqueued` is the named registers. -/
theorem putStoresAtHead : Obligations.PutStoresAtHead := by
  rintro s h serving ne room _ _ _ rfl rfl rfl
  exact exec_put_stored serving ne ((putFailure_eq_none _).2 room)

/-- Settles O19: the null handle comes before STATUS, and STATUS gives `putFailure`'s code. -/
theorem failedPutChangesNothing : Obligations.FailedPutChangesNothing := by
  intro s h serving
  refine ⟨fun null => ?_, fun ne full => ?_, fun ne invalid => ?_⟩
  · exact exec_answer .invalidArgument serving (if_pos null) rfl
  · exact exec_put_refused serving ne (full ▸ putFailure_full)
  · exact exec_put_refused serving ne (putFailure_invalid invalid)

/-! ## GET and GET_STATUS -/

/-- Settles O20: `exec_get_taken`, where `dequeued` is the named registers. -/
theorem getTakesTheHandleAtTail : Obligations.GetTakesTheHandleAtTail := by
  rintro s h serving some slot _ _ rfl rfl
  rw [exec_get_taken serving some, readSlot_of_getElem? slot]
  rfl

/-- Settles O21: GET's first check. -/
theorem getOnEmptyChangesNothing : Obligations.GetOnEmptyChangesNothing := fun _ serving empty =>
  exec_answer .queueEmpty serving (if_pos empty) rfl

/-- The number of GET_STATUS's code for each STATUS (R57, R89). -/
theorem statusCode_num (st : Byte) :
    (statusCode st).num =
      if st = 0x00#8 then 0x01#8 else if st = 0x01#8 then 0x02#8 else if st = 0x02#8 then 0x03#8 else 0x84#8 := by
  unfold statusCode
  split_ifs <;> rfl

/-- Settles O22: `statusCode` answers, and its numbers are these. -/
theorem getStatusReportsStatus : Obligations.GetStatusReportsStatus := by
  rintro s serving _ rfl
  exact exec_answer (statusCode s.status) serving rfl rfl (statusCode_num _)

/-- SIZE 0 counts down to 2^SW - 1 (R91). -/
theorem sizeDown_zero (cap : Nat) : sizeDown cap 0 = 2 ^ sizeWidth cap - 1 := by
  rw [sizeDown, Nat.zero_add]
  exact Nat.mod_eq_of_lt (Nat.sub_lt (Nat.two_pow_pos _) Nat.one_pos)

/-- Any other SIZE of the register counts down by 1 (R91). -/
theorem sizeDown_pos {cap size : Nat} (pos : 0 < size) (lt : size < 2 ^ sizeWidth cap) :
    sizeDown cap size = size - 1 := by
  rw [sizeDown, show size + (2 ^ sizeWidth cap - 1) = (size - 1) + 2 ^ sizeWidth cap by omega, Nat.add_mod_right]
  exact Nat.mod_eq_of_lt (by omega)

/-- Settles O23: such a STATUS is not EMPTY, so GET takes the handle at TAIL, and STATUS follows from SIZE. -/
theorem getProceedsOnCorruptedStatus : Obligations.GetProceedsOnCorruptedStatus := by
  intro s serving invalid pos lt
  have some : s.status ≠ 0x00#8 := fun e => by rw [e] at invalid; exact absurd invalid (by decide)
  refine ⟨_, exec_get_taken serving some, fun zero => ?_, fun more => ?_⟩
  · have wide : s.cap < 2 ^ sizeWidth s.cap := lt_two_pow_bitLength s.cap
    rw [answer_size, answer_status, dequeued_size, dequeued_status, zero, sizeDown_zero, statusAfterGet,
      if_neg (by omega)]
    exact ⟨rfl, rfl⟩
  · rw [answer_size, answer_status, dequeued_size, dequeued_status, sizeDown_pos more lt, statusAfterGet]
    refine ⟨rfl, ?_⟩
    simp only [show s.size - 1 = 0 ↔ s.size = 1 by omega]

/-! ## First in, first out -/

theorem answer_sameRing (w : Word) (s : State) : SameRing s (answer w s) := by
  simp [SameRing, SameQueue]

theorem QueueInv.answer {s : State} (inv : QueueInv s) (w : Word) : QueueInv (answer w s) :=
  inv.sameRing (answer_sameRing w s)

/-- A response leaves the queue's contents alone. -/
theorem queueContents_answer {s : State} (inv : QueueInv s) (w : Word) :
    queueContents (answer w s) = queueContents s :=
  queueContents_congr inv (answer_sameRing w s).1 (answer_sameRing w s).2

/-- Settles O26: PUT is `enqueued`, which appends to the contents; GET is `dequeued`, which takes the first of them. -/
theorem queueIsFirstInFirstOut : Obligations.QueueIsFirstInFirstOut := by
  refine ⟨fun s h inv serving ne room => ?_, fun s inv serving some => ?_⟩
  · have next := inv.enqueued ne room
    refine ⟨_, exec_put_stored serving ne (inv.putFailure_none_iff.2 room), next.answer _, ?_⟩
    rw [queueContents_answer next, queueContents_enqueued inv h room]
  · have next := inv.dequeued some
    have full : s.status ≠ 0x00#8 := fun e => Nat.ne_of_gt some (inv.empty_iff.1 e)
    refine ⟨_, readSlot s.tail s, exec_get_taken serving full, next.answer _, ?_, ?_⟩
    · rw [queueContents_answer next, queueContents_dequeued inv some]
    · rw [answer_status]
      exact answer_rsp _ (dequeued s)

/-- With C handles in the queue STATUS is FULL (R29 item 4). -/
theorem QueueInv.full {s : State} (inv : QueueInv s) (full : s.size = s.cap) : s.status = 0x02#8 := by
  obtain ⟨pos, -, -, -, -, -, status, -⟩ := inv
  rw [status, if_neg (by omega), if_pos full]

/-- The operations of a list, where the first answers a next state. -/
theorem execAll_cons {i : Instr} {is : List Instr} {s t : State} (h : exec i s = .next t) :
    execAll (i :: is) s = execAll is t := by
  rw [execAll, h]

/-- PUTs of non-null handles that all find room are appended to the contents in their order (R94). -/
theorem execAll_puts (hs : List Handle) {s : State} (inv : QueueInv s) (run : s.mode = .run)
    (port : s.active = .producer) (room : s.size + hs.length ≤ s.cap) (ne : ∀ h ∈ hs, h ≠ 0x0000#16) :
    ∃ t, execAll (hs.map .put) s = .next t ∧ QueueInv t ∧ queueContents t = queueContents s ++ hs ∧
      t.size = s.size + hs.length ∧ t.cap = s.cap ∧ t.mode = .run ∧ t.active = .producer := by
  induction hs generalizing s with
  | nil => exact ⟨s, rfl, inv, (List.append_nil _).symm, rfl, rfl, run, port⟩
  | cons h hs ih =>
    rw [List.length_cons] at room
    have free : s.size < s.cap := by omega
    have ne' := ne h List.mem_cons_self
    have next := inv.enqueued ne' free
    have put := exec_put_stored ⟨run, by rw [port]; rfl⟩ ne' (inv.putFailure_none_iff.2 free)
    have size : (enqueued h s).size = s.size + 1 := sizeUp_of_lt free
    obtain ⟨t, all, tInv, contents, tSize, tCap, tMode, tActive⟩ :=
      ih (next.answer (0x00#8 ++ (enqueued h s).status ++ 0x0000#16)) ((answer_mode _ _).trans run)
        ((answer_active _ _).trans port) (by rw [answer_size, answer_cap, size, enqueued_cap]; omega)
        fun g hg => ne g (List.mem_cons_of_mem _ hg)
    refine ⟨t, by rw [List.map_cons, execAll_cons put, all], tInv, ?_, ?_, by rw [tCap, answer_cap, enqueued_cap],
      tMode, tActive⟩
    · rw [contents, queueContents_answer next, queueContents_enqueued inv h free, List.append_assoc,
        List.singleton_append]
    · rw [tSize, answer_size, size, List.length_cons]
      omega

/-- Settles O27: `execAll_puts` from SIZE 0; after C of them STATUS is FULL, on which PUT is refused. -/
theorem queueHoldsCapacityHandles : Obligations.QueueHoldsCapacityHandles := by
  intro s hs inv run port empty room ne
  obtain ⟨t, all, tInv, contents, size, cap, mode, active⟩ := execAll_puts hs inv run port (by omega) ne
  refine ⟨t, all, tInv, ?_, fun full => ?_⟩
  · rw [contents, queueContents, empty, List.range_zero, List.map_nil, List.nil_append]
  · have status := tInv.full (by omega)
    refine ⟨status, fun h ne => ?_⟩
    exact exec_put_refused ⟨mode, by rw [active]; rfl⟩ ne (status ▸ putFailure_full)

/-! ## The widths of the counters -/

/-- Settles O28: both widths are bit lengths, of C and of C - 1. -/
theorem counterWidthsAreBitLengths : Obligations.CounterWidthsAreBitLengths := by
  intro c pos
  refine ⟨lt_two_pow_bitLength c, two_pow_le_of_bitLength pos, le_max_left _ _, ?_, fun wide => ?_⟩
  · exact (lt_two_pow_bitLength (c - 1)).trans_le (Nat.pow_le_pow_right Nat.two_pos (le_max_right _ _))
  · have width : indexWidth c = bitLength (c - 1) := by unfold indexWidth at wide ⊢; omega
    have more : 0 < c - 1 := Nat.pos_of_ne_zero fun zero => by
      rw [width, zero] at wide
      exact absurd wide (by decide)
    rw [width]
    exact two_pow_le_of_bitLength more

end Machine

end Sys2Proof

/-! PROOFS. ALLOC and DEALLOC (R78 to R81). -/

namespace Sys2Proof

namespace Machine

/-- A served ALLOC that the Pool meets answers the handle and STATUS (R80). -/
theorem exec_alloc_met {s u : State} {n : Len} {h : Handle} (serving : Serving (.alloc n) s)
    (met : poolAlloc n s = (some h, u)) (mode : u.mode = s.mode) :
    exec (.alloc n) s = .next (answer (0x00#8 ++ u.status ++ h) u) := by
  have body : bodyOf (.alloc n) s = respond .ok h u := by rw [bodyOf, allocBody, met]
  exact exec_answer .ok serving body mode

/-- A served ALLOC that the Pool does not meet answers AllocationError (R80). -/
theorem exec_alloc_failed {s u : State} {n : Len} (serving : Serving (.alloc n) s)
    (failed : poolAlloc n s = (none, u)) (mode : u.mode = s.mode) :
    exec (.alloc n) s = .next (answer (0x80#8 ++ u.status ++ 0x0000#16) u) := by
  have body : bodyOf (.alloc n) s = respond .allocationError 0x0000#16 u := by rw [bodyOf, allocBody, failed]
  exact exec_answer .allocationError serving body mode

/-- Settles O29: a drawn free handle is the one taken, with a fresh record; a drawn failure fails. -/
theorem allocFollowsItsDraw : Obligations.AllocFollowsItsDraw := by
  refine ⟨fun s n h rest serving draw ne free => ?_, fun s n rest serving draw => ?_⟩
  · exact ⟨(freshRecord s.env.tick n).pay, freshRecord_pay_length _ _,
      exec_alloc_met serving (poolAlloc_drawn draw ne free) rfl⟩
  · exact exec_alloc_failed serving (poolAlloc_drawn_failure draw) rfl

/-- Settles O30: `poolAlloc_cases`; where every handle is live it can only fail, since what it takes was free. -/
theorem allocCompletesUnderEveryDraw : Obligations.AllocCompletesUnderEveryDraw := by
  intro s n serving
  rcases poolAlloc_cases n s with ⟨e, failed⟩ | ⟨h, e, k, ne, free, met⟩
  · have rsp := answer_rsp (0x80#8 ++ s.status ++ 0x0000#16) { s with env := e }
    exact ⟨_, exec_alloc_failed serving failed rfl, .inl ⟨answer_mem _ _, rsp⟩, fun _ => rsp⟩
  · have rsp := answer_rsp (0x00#8 ++ s.status ++ h)
      { s with env := e, mem := Memory.insert s.mem h.toNat (freshRecord k n) }
    refine ⟨_, exec_alloc_met serving met rfl, .inr ⟨h, ne, free, rsp, freshRecord k n, ?_, rfl, rfl, rfl,
      freshRecord_pay_length _ _⟩, fun all => ?_⟩
    · rw [answer_mem, Memory.find_insert_self]
    · rw [all h ne] at free
      cases free

/-- Settles O31: PoolFree of a live handle erases its record, and of any other warns. -/
theorem deallocReleasesALiveHandle : Obligations.DeallocReleasesALiveHandle := by
  refine fun s h serving => ⟨fun ne live => ⟨?_, Memory.find_erase s.mem h.toNat⟩, exec_dealloc_warning serving⟩
  have body : bodyOf (.dealloc h) s = respond .ok 0x0000#16 { s with mem := Memory.erase s.mem h.toNat } := by
    rw [bodyOf, deallocBody, poolFree_live ne live]
  exact exec_answer .ok serving body rfl

end Machine

end Sys2Proof

/-! PROOFS. RX_BYTE past the header's first three bytes: byte 3, a payload byte, and the byte that ends a frame (R68 to
R74, R77). -/

namespace Sys2Proof

namespace Machine

/-! ## Byte 3 -/

/-- At byte 3 TOTAL is still 4, there is no working buffer and no frame is discarded (R30). -/
theorem FramingInv.header {s : State} (inv : FramingInv s) (h : s.cnt = 3#17) :
    s.total = 4#17 ∧ s.wh = 0x0000#16 ∧ s.discard = false := by
  obtain ⟨-, header, -⟩ := inv
  exact header (by rw [h]; decide)

/-- Everything byte 3 with a non-zero length can do (R68, R74): the decoder gets a fresh buffer, or it discards and the
failure is logged. -/
theorem receive_byte3_cases {s : State} (inv : FramingInv s) (b : Byte) (h : s.cnt = 3#17)
    (nonempty : addLengthHigh s.len b ≠ 0#16) :
    (∃ e, receive b s = (.allocationError, 0x0000#16, { s with
        len := addLengthHigh s.len b, total := extendTotal 4#17 (addLengthHigh s.len b), wh := 0x0000#16
        discard := true, cnt := 4#17, log := s.log ++ [eventOf .allocationError], env := e })) ∨
    ∃ w e k, w ≠ 0x0000#16 ∧ Memory.live s.mem w.toNat = false ∧
      receive b s = (.ok, 0x0000#16, { s with
        len := addLengthHigh s.len b, total := extendTotal 4#17 (addLengthHigh s.len b), wh := w, cnt := 4#17
        mem := Memory.insert s.mem w.toNat (freshRecord k (addLengthHigh s.len b)), env := e }) := by
  obtain ⟨total, -, -⟩ := inv.header h
  rw [receive_byte3_payload inv b h nonempty]
  rcases startPayload_cases { s with len := addLengthHigh s.len b } with ⟨e, start⟩ | ⟨w, e, k, ne, free, start⟩
  · refine .inl ⟨e, ?_⟩
    rw [start]
    simp [countByte, logEvent, eventOf, h, total]
  · refine .inr ⟨w, e, k, ne, free, ?_⟩
    rw [start]
    simp [countByte, h, total]

/-- Byte 3 with a non-zero length and a free handle drawn (R68). -/
theorem receive_byte3_drawn {s : State} (inv : FramingInv s) (b : Byte) (h : s.cnt = 3#17)
    (nonempty : addLengthHigh s.len b ≠ 0#16) {w : Handle} {rest : List (Option Handle)}
    (draw : s.env.allocs = some w :: rest) (ne : w ≠ 0x0000#16) (free : Memory.live s.mem w.toNat = false) :
    receive b s = (.ok, 0x0000#16, { s with
      len := addLengthHigh s.len b, total := extendTotal 4#17 (addLengthHigh s.len b), wh := w, cnt := 4#17
      mem := Memory.insert s.mem w.toNat (freshRecord s.env.tick (addLengthHigh s.len b))
      env := { s.env with allocs := rest, tick := s.env.tick + 1 } }) := by
  obtain ⟨total, -, -⟩ := inv.header h
  rw [receive_byte3_payload inv b h nonempty,
    startPayload_drawn (s := { s with len := addLengthHigh s.len b }) draw ne free]
  simp [countByte, h, total]

/-- Byte 3 with a non-zero length and a failing draw (R74). -/
theorem receive_byte3_drawn_failure {s : State} (inv : FramingInv s) (b : Byte) (h : s.cnt = 3#17)
    (nonempty : addLengthHigh s.len b ≠ 0#16) {rest : List (Option Handle)} (draw : s.env.allocs = none :: rest) :
    receive b s = (.allocationError, 0x0000#16, { s with
      len := addLengthHigh s.len b, total := extendTotal 4#17 (addLengthHigh s.len b), wh := 0x0000#16, discard := true
      cnt := 4#17, log := s.log ++ [eventOf .allocationError], env := { s.env with allocs := rest } }) := by
  obtain ⟨total, -, -⟩ := inv.header h
  rw [receive_byte3_payload inv b h nonempty,
    startPayload_drawn_failure (s := { s with len := addLengthHigh s.len b }) draw]
  simp [countByte, logEvent, eventOf, h, total]

/-- Settles O35: `receive_byte3_drawn`. -/
theorem lengthHighByteStartsThePayload : Obligations.LengthHighByteStartsThePayload := by
  rintro s b _ w rest serving inv h rfl nonempty draw ne free
  refine ⟨(freshRecord s.env.tick (addLengthHigh s.len b)).pay, freshRecord_pay_length _ _, ?_⟩
  rw [exec_rxByte_answer serving (receive_byte3_drawn inv b h nonempty draw ne free), Code.num]
  rfl

/-- Settles O36: `receive_byte3_drawn_failure`. -/
theorem lengthHighByteAbandonsTheFrame : Obligations.LengthHighByteAbandonsTheFrame := by
  rintro s b _ rest serving inv h rfl nonempty draw
  rw [exec_rxByte_answer serving (receive_byte3_drawn_failure inv b h nonempty draw), Code.num]
  rfl

/-- Settles O37: `receive_byte3_cases`. -/
theorem lengthHighByteCompletesUnderEveryDraw : Obligations.LengthHighByteCompletesUnderEveryDraw := by
  rintro s b _ serving inv h rfl nonempty
  rcases receive_byte3_cases inv b h nonempty with ⟨e, received⟩ | ⟨w, e, k, ne, free, received⟩
  · refine ⟨_, exec_rxByte_answer serving received, answer_len _ _, ?_, answer_cnt _ _, answer_wmod _ _,
      answer_wfun _ _, by simp [SameQueue],
      .inr ⟨answer_wh _ _, answer_discard _ _, answer_mem _ _, answer_log _ _, ?_⟩⟩
    · rw [answer_total]
      exact extendTotal_four _
    · exact answer_rsp (0x80#8 ++ s.status ++ 0x0000#16) _
  · obtain ⟨-, -, discard⟩ := inv.header h
    refine ⟨_, exec_rxByte_answer serving received, answer_len _ _, ?_, answer_cnt _ _, answer_wmod _ _,
      answer_wfun _ _, by simp [SameQueue], .inl ⟨?_, answer_log _ _, ?_⟩⟩
    · rw [answer_total]
      exact extendTotal_four _
    · simp [HoldsBuffer, ne, discard, Memory.find_insert_self, addLengthHigh]
    · exact answer_rsp (0x00#8 ++ s.status ++ 0x0000#16) _

/-! ## A payload byte -/

/-- Settles O38: the byte is `receive_payload`, dropped or stored. -/
theorem payloadByteIsStored : Obligations.PayloadByteIsStored := by
  intro s b serving inv ge more
  have received := receive_payload inv b ge more
  refine ⟨fun drop => ?_, fun r keep wf live len => ?_⟩
  · rw [takePayload_dropped b drop] at received
    rw [exec_rxByte_answer serving received, Code.num]
    rfl
  · rw [takePayload_stored inv b ge keep wf live len] at received
    rw [exec_rxByte_answer serving received, Code.num]
    rfl

/-! ## The last byte -/

/-- The last payload byte of a frame whose Command is allocated and enqueued (R70, R71): what the record store holds
then is the Command with the whole payload, nothing at WH, and what it held before elsewhere. -/
theorem receive_last_enqueued {s : State} (inv : FramingInv s) (b : Byte) (ge : 4 ≤ s.cnt.toNat)
    (last : s.cnt.toNat + 1 = s.total.toNat) (wf : Memory.wf s.mem = true) (keep : s.discard = false)
    (neWh : s.wh ≠ 0x0000#16) {r : Record} (live : Memory.find s.mem s.wh.toNat = some r) (len : r.dlen = s.len)
    {f : Handle} {rest : List (Option Handle)} (draw : s.env.allocs = some f :: rest) (ne : f ≠ 0x0000#16)
    (free : Memory.live s.mem f.toNat = false) (room : putFailure s.status = none) :
    ∃ m k, receive b s = (.ok, f, enqueued f (decoderReset { s with
        mem := m, env := { s.env with allocs := rest, tick := k } })) ∧
      ∀ g, Memory.find m g =
        if g = f.toNat then
          some { modId := s.wmod, funId := s.wfun, dlen := s.len, pay := r.pay.set (s.cnt.toNat - 4) b }
        else if g = s.wh.toNat then none else Memory.find s.mem g := by
  have distinct : f.toNat ≠ s.wh.toNat := fun same => by
    rw [same, Memory.live, live] at free
    cases free
  have payLen := (Memory.wf_find wf live).2.2
  rw [receive_last inv b ge last, takePayload_stored inv b ge keep wf live len]
  generalize stored : ({ r with pay := r.pay.set (s.cnt.toNat - 4) b } : Record) = r'
  have freeStill : Memory.live (Memory.insert s.mem s.wh.toNat r') f.toNat = false := by
    rwa [Memory.live, Memory.find_insert_other _ _ distinct]
  obtain ⟨m, received, found⟩ := finalize_enqueued
    (s := countByte { s with mem := Memory.insert s.mem s.wh.toNat r' }) keep draw ne freeStill room distinct
  refine ⟨m, _, received, fun g => ?_⟩
  rw [found, commandRecord_of_working (r := r')]
  · simp only [countByte_wmod, countByte_wfun, countByte_len, countByte_wh, countByte_mem, Memory.find_insert, ← stored]
    by_cases hw : g = s.wh.toNat <;> simp [hw, neWh]
  · simp [Memory.find_insert, Ne.symm distinct]
  · simp [← stored, payLen, len]

/-- Settles O39: `receive_last_enqueued`. -/
theorem lastByteEnqueuesTheCommand : Obligations.LastByteEnqueuesTheCommand := by
  intro s b r f rest serving inv ge last wf keep neWh live len draw ne free room
  obtain ⟨m, k, received, found⟩ := receive_last_enqueued inv b ge last wf keep neWh live len draw ne free
    ((putFailure_eq_none _).2 room)
  refine ⟨_, exec_rxByte_answer serving received, ?_, fun g => ?_, answer_slots _ _, answer_head _ _, answer_size _ _,
    answer_tail _ _, ?_, answer_log _ _, ?_⟩
  · simp [DecoderIdle]
  · rw [answer_mem]
    exact found g
  · rw [answer_status, answer_size, answer_head]
    rfl
  · rw [answer_status]
    exact answer_rsp _ (enqueued f (decoderReset _))

/-- The byte `b` ends its frame: byte 3 with a length of 0, or the last payload byte (R70). -/
abbrev EndsFrame (b : Byte) (s : State) : Prop :=
  (s.cnt = 3#17 ∧ s.len + (b.setWidth 16 <<< 8) = 0#16) ∨ (4 ≤ s.cnt.toNat ∧ s.cnt.toNat + 1 = s.total.toNat)

/-- A byte that ends its frame comes to Finalize in a state whose record store differs at most in the contents of WH's
record, and not at all in discard mode (R69, R70). -/
theorem receive_endsFrame {s : State} (inv : FramingInv s) {b : Byte} (ends : EndsFrame b s) :
    ∃ c m e, receive b s = finalize { s with
        cnt := c, len := if s.cnt = 3#17 then 0#16 else s.len, mem := m, env := e } ∧
      (∀ g, g ≠ s.wh.toNat → Memory.find m g = Memory.find s.mem g) ∧
      (∀ g, Memory.live m g = Memory.live s.mem g) ∧ (s.discard = true → m = s.mem) := by
  rcases ends with ⟨h, empty⟩ | ⟨ge, last⟩
  · refine ⟨4#17, s.mem, s.env, ?_, fun _ _ => rfl, fun _ => rfl, fun _ => rfl⟩
    rw [receive_byte3_empty inv b h empty, if_pos h]
  · have ne3 : s.cnt ≠ 3#17 := fun h => by rw [h] at ge; exact absurd ge (by decide)
    obtain ⟨m, e, taken, others, lens, -⟩ := takePayload_shape b s
    refine ⟨s.cnt + 1#17, m, e, ?_, others, fun g => ?_, fun drop => ?_⟩
    · rw [receive_last inv b ge last, taken, if_neg ne3]
      rfl
    · have same := congrArg Option.isSome (lens g)
      rwa [Option.isSome_map, Option.isSome_map] at same
    · rw [takePayload_dropped b drop] at taken
      exact (congrArg State.mem taken).symm

/-- Why an Enqueue is refused, by STATUS (R86). -/
theorem putFailure_eq_some {st : Byte} {c : Code} (h : putFailure st = some c) :
    (c = .queueFull ∧ st = 0x02#8) ∨ (c = .queueInvalid ∧ 3 ≤ st.toNat) := by
  by_cases full : st = 0x02#8
  · rw [full, putFailure_full] at h
    exact .inl ⟨(Option.some.inj h).symm, full⟩
  · by_cases ge : 3 ≤ st.toNat
    · rw [putFailure_invalid ge] at h
      exact .inr ⟨(Option.some.inj h).symm, ge⟩
    · have ne (k : Byte) (hk : st ≠ k) : st.toNat ≠ k.toNat := fun e => hk (BitVec.eq_of_toNat_eq e)
      have low : st = 0x00#8 ∨ st = 0x01#8 := by
        by_contra other
        obtain ⟨n0, n1⟩ := not_or.1 other
        have := ne _ n0
        have := ne _ n1
        have := ne _ full
        simp only [BitVec.toNat_ofNat] at *
        omega
      rw [(putFailure_eq_none st).2 low] at h
      cases h

/-- A frame whose Command is lost with the code `c`, as Finalize leaves it: the loss is logged and answered, the queue
is unchanged, and no handle has become live (R71, R77). -/
theorem exec_rxByte_lost {s : State} {b : Byte} {c : Code} {n : Byte} {m : Memory} {e : Env}
    (serving : Serving (.rxByte b) s)
    (received : receive b s = (c, 0x0000#16, logEvent c (decoderReset { s with mem := m, env := e })))
    (none : MakesLiveOnly (fun _ => False) s { s with mem := m }) (num : c.num = n) :
    ∃ t, exec (.rxByte b) s = .next t ∧ DecoderIdle t ∧ t.tail = s.tail ∧ SameQueue s t ∧
      MakesLiveOnly (fun _ => False) s t ∧ t.log = s.log ++ [eventOf c] ∧
      (t.port s.active).rsp = some (n ++ s.status ++ 0x0000#16) := by
  subst num
  refine ⟨_, exec_rxByte_answer serving received, by simp [DecoderIdle], answer_tail _ _, by simp [SameQueue],
    fun g dead live => none g dead ?_, answer_log _ _, ?_⟩
  · rwa [answer_mem] at live
  · exact answer_rsp (c.num ++ s.status ++ 0x0000#16) (logEvent c (decoderReset { s with mem := m, env := e }))

/-- Settles O40: the byte comes to Finalize (`receive_endsFrame`), and `finalize_cases` are the ends a frame
can have. -/
theorem lastByteEndsTheFrame : Obligations.LastByteEndsTheFrame := by
  intro s b serving inv ends
  obtain ⟨c, m, e, received, -, lives, dropped⟩ := receive_endsFrame inv ends
  rcases finalize_cases { s with cnt := c, len := if s.cnt = 3#17 then 0#16 else s.len, mem := m, env := e } with
    ⟨drop, fin⟩ | ⟨keep, m', e', -, -, liveOnly, -, fin | ⟨f, ne, free, record, room, fin⟩ | ⟨code, refused, fin⟩⟩
  · rw [fin] at received
    refine ⟨_, exec_rxByte_answer serving received, by simp [DecoderIdle], answer_tail _ _,
      .inl ⟨drop, by simp [SameQueue], ?_, answer_log _ _, ?_⟩⟩
    · rw [answer_mem]
      exact dropped drop
    · exact answer_rsp (0x00#8 ++ s.status ++ 0x0000#16) _
  · rw [fin] at received liveOnly
    obtain ⟨t, served, idle, tail, lost⟩ := exec_rxByte_lost serving received
      (fun g dead live => nomatch (liveOnly g ((lives g).trans dead) live).1) rfl
    exact ⟨t, served, idle, tail, .inr (.inl ⟨keep, lost⟩)⟩
  · rw [fin] at received liveOnly
    refine ⟨_, exec_rxByte_answer serving received, by simp [DecoderIdle], answer_tail _ _,
      .inr (.inr (.inl ⟨keep, (putFailure_eq_none _).1 room, answer_log _ _, answer_head _ _, answer_size _ _, ?_,
        f, ne, (lives _).symm.trans free, fun g dead live => ?_, fun other => ?_, answer_slots _ _, ?_⟩))⟩
    · rw [answer_status, answer_size, answer_head]
      rfl
    · rw [answer_mem] at live
      exact (liveOnly g ((lives g).trans dead) live).2
    · rw [answer_mem]
      exact record other
    · rw [answer_status]
      exact answer_rsp _ (enqueued f (decoderReset _))
  · rw [fin] at received liveOnly
    have none : MakesLiveOnly (fun _ => False) s { s with mem := m' } := fun g dead live => by
      have ok := (liveOnly g ((lives g).trans dead) live).1
      rcases putFailure_ne_ok refused with rfl | rfl <;> cases ok
    rcases putFailure_eq_some refused with ⟨rfl, full⟩ | ⟨rfl, invalid⟩
    · obtain ⟨t, served, idle, tail, lost⟩ := exec_rxByte_lost serving received none rfl
      exact ⟨t, served, idle, tail, .inr (.inr (.inr (.inl ⟨keep, full, lost⟩)))⟩
    · obtain ⟨t, served, idle, tail, lost⟩ := exec_rxByte_lost serving received none rfl
      exact ⟨t, served, idle, tail, .inr (.inr (.inr (.inr ⟨keep, invalid, lost⟩)))⟩

end Machine

end Sys2Proof

/-! PROOFS. Whole frames, by induction over the payload: the round trip of a frame (R63 to R72, R94) and the frame that
is counted out (R74). -/

namespace Sys2Proof

namespace Machine

/-! ## The requests of a frame, one after another -/

/-- The block is in RUN with port P in service and the framing intact: RX_BYTE is served, and serves a frame. -/
structure Listening (s : State) : Prop where
  run : s.mode = .run
  port : s.active = .producer
  framing : FramingInv s

theorem Listening.serving {s : State} (h : Listening s) (b : Byte) : Serving (.rxByte b) s :=
  ⟨h.run, by rw [h.port]; rfl⟩

/-- After a byte the block listens for the next one, whatever the byte did. -/
theorem Listening.rxByte {s u : State} (h : Listening s) {b : Byte} {r : Code} {v : Handle}
    (received : receive b s = (r, v, u)) :
    ∃ w, exec (.rxByte b) s = .next (answer w u) ∧ Listening (answer w u) := by
  have framing := h.framing.receive b
  obtain ⟨-, active, -⟩ := receive_outside b s
  have mode := receive_mode b s
  rw [received] at framing active mode
  refine ⟨_, exec_rxByte_answer (h.serving b) received, ?_, ?_, ?_⟩
  · rw [answer_mode, mode, h.run]
  · rw [answer_active, active, h.port]
  · exact framing.congr (by simp [SameDecoder])

/-- The payload bytes but the last keep a relation `P` between the bytes received so far and the state, where each of
them does. -/
theorem execAll_payload {P : List Byte → State → Prop} {n : Nat}
    (byte : ∀ (done : List Byte) (b : Byte) (s : State), P done s → done.length + 1 < n →
      ∃ t, exec (.rxByte b) s = .next t ∧ P (done ++ [b]) t)
    (more : List Byte) (next : List Instr) {done : List Byte} {s : State} (h : P done s)
    (lt : done.length + more.length < n) :
    ∃ t, execAll (more.map .rxByte ++ next) s = execAll next t ∧ P (done ++ more) t := by
  induction more generalizing done s with
  | nil => exact ⟨s, rfl, by rwa [List.append_nil]⟩
  | cons b more ih =>
    rw [List.length_cons] at lt
    obtain ⟨t, served, ht⟩ := byte done b s h (by omega)
    obtain ⟨u, all, hu⟩ := ih ht (by rw [List.length_append, List.length_singleton]; omega)
    refine ⟨u, ?_, by simpa using hu⟩
    rw [List.map_cons, List.cons_append, execAll_cons served, all]

theorem execAll_last {i : Instr} {s t : State} (h : exec i s = .next t) : execAll [i] s = .next t := by
  rw [execAll_cons h, execAll]

/-! ## The header -/

/-- What the bytes of a header leave alone: the queue, the records, the log and the environment's choices (R66, R67). -/
structure HeaderKeeps (s t : State) : Prop where
  ring : SameRing s t
  mem : t.mem = s.mem
  log : t.log = s.log
  env : t.env = s.env

theorem HeaderKeeps.trans {s t u : State} (st : HeaderKeeps s t) (tu : HeaderKeeps t u) : HeaderKeeps s u :=
  ⟨st.ring.trans tu.ring, tu.mem.trans st.mem, tu.log.trans st.log, tu.env.trans st.env⟩

/-- A state that differs in the decoder's registers only, with a response. -/
theorem HeaderKeeps.answer {s u : State} (w : Word)
    (same : u = { s with cnt := u.cnt, len := u.len, wmod := u.wmod, wfun := u.wfun }) :
    HeaderKeeps s (answer w u) := by
  rw [same]
  exact ⟨answer_sameRing w { s with cnt := _, len := _, wmod := _, wfun := _ }, answer_mem _ _, answer_log _ _,
    answer_env _ _⟩

/-- The first three bytes of a frame from an idle decoder (R66, R67). -/
theorem execAll_header {s : State} (h : Listening s) (idle : DecoderIdle s) (m f lo : Byte) (next : List Instr) :
    ∃ t, execAll (.rxByte m :: .rxByte f :: .rxByte lo :: next) s = execAll next t ∧ Listening t ∧ HeaderKeeps s t ∧
      t.cnt = 3#17 ∧ t.wmod = m ∧ t.wfun = f ∧ t.len = addLengthLow 0#16 lo := by
  obtain ⟨w0, served0, h0⟩ := h.rxByte (receive_byte0 h.framing m idle.1)
  have keep0 := HeaderKeeps.answer (s := s) w0 (u := { s with wmod := m, cnt := 1#17 }) rfl
  generalize ht0 : answer w0 { s with wmod := m, cnt := 1#17 } = t0 at served0 h0 keep0
  have cnt0 : t0.cnt = 1#17 := by rw [← ht0, answer_cnt]
  have wmod0 : t0.wmod = m := by rw [← ht0, answer_wmod]
  obtain ⟨w1, served1, h1⟩ := h0.rxByte (receive_byte1 h0.framing f cnt0)
  have keep1 := HeaderKeeps.answer (s := t0) w1 (u := { t0 with wfun := f, cnt := 2#17 }) rfl
  generalize ht1 : answer w1 { t0 with wfun := f, cnt := 2#17 } = t1 at served1 h1 keep1
  have cnt1 : t1.cnt = 2#17 := by rw [← ht1, answer_cnt]
  have wmod1 : t1.wmod = m := by rw [← ht1, answer_wmod, wmod0]
  have wfun1 : t1.wfun = f := by rw [← ht1, answer_wfun]
  obtain ⟨w2, served2, h2⟩ := h1.rxByte (receive_byte2 h1.framing lo cnt1)
  have keep2 := HeaderKeeps.answer (s := t1) w2 (u := { t1 with len := lo.setWidth 16, cnt := 3#17 }) rfl
  refine ⟨_, ?_, h2, (keep0.trans keep1).trans keep2, answer_cnt _ _, (answer_wmod _ _).trans wmod1,
    (answer_wfun _ _).trans wfun1, ?_⟩
  · rw [execAll_cons served0, execAll_cons served1, execAll_cons served2]
  · rw [answer_len, addLengthLow_zero]

/-- A length is the sum that its two bytes leave in the accumulator (R75). -/
theorem addLength_bytes (n : Len) :
    addLengthHigh (addLengthLow 0#16 (n.extractLsb' 0 8)) (n.extractLsb' 8 8) = n := by
  have := n.isLt
  apply BitVec.eq_of_toNat_eq
  rw [addLengthHigh_addLengthLow_toNat]
  simp only [BitVec.extractLsb'_toNat, Nat.shiftRight_eq_div_pow]
  omega

/-- A payload's length as LEN (R63). -/
def lenOf (payload : List Byte) : Len := BitVec.ofNat 16 payload.length

theorem lenOf_toNat {payload : List Byte} (le : payload.length ≤ 65535) : (lenOf payload).toNat = payload.length := by
  rw [lenOf, BitVec.toNat_ofNat]
  omega

theorem lenOf_ne_zero {payload : List Byte} (le : payload.length ≤ 65535) (ne : payload ≠ []) :
    lenOf payload ≠ 0#16 := by
  intro zero
  have := lenOf_toNat le
  rw [zero] at this
  exact ne (List.eq_nil_of_length_eq_zero this.symm)

/-- From `s` on, the frame with the ids `m` and `f` and the payload `payload` has come up to its byte 3, which is
`hi`. -/
structure AwaitsLength (s : State) (m f : Byte) (payload : List Byte) (hi : Byte) (t : State) : Prop where
  listening : Listening t
  keep : HeaderKeeps s t
  cnt : t.cnt = 3#17
  wmod : t.wmod = m
  wfun : t.wfun = f
  len : addLengthHigh t.len hi = lenOf payload

/-- A frame up to its byte 3 (R63, R66, R67). -/
theorem execAll_frame {s : State} (h : Listening s) (idle : DecoderIdle s) (m f : Byte) (payload : List Byte) :
    ∃ t hi, execAll (frameRequests m f payload) s = execAll (.rxByte hi :: payload.map .rxByte) t ∧
      AwaitsLength s m f payload hi t := by
  obtain ⟨t, all, ht, keep, cnt, wmod, wfun, len⟩ := execAll_header h idle m f ((lenOf payload).extractLsb' 0 8)
    (.rxByte ((lenOf payload).extractLsb' 8 8) :: payload.map .rxByte)
  exact ⟨t, _, all, ht, keep, cnt, wmod, wfun, by rw [len, addLength_bytes]⟩

/-! ## The frame that is counted out -/

/-- `t` discards a frame of `n` payload bytes, `done` of which have come since `s`; the failure has been logged
(R74). -/
structure Discarding (s : State) (n : Len) (done : List Byte) (t : State) : Prop where
  listening : Listening t
  ring : SameRing s t
  mem : t.mem = s.mem
  log : t.log = s.log ++ [eventOf .allocationError]
  cnt : t.cnt.toNat = 4 + done.length
  len : t.len = n
  discard : t.discard = true

/-- Byte 3 with a failing draw starts to discard (R74). -/
theorem Discarding.start {s t : State} {m f hi : Byte} {payload : List Byte} {rest : List (Option Handle)}
    (await : AwaitsLength s m f payload hi t) (nonempty : payload ≠ []) (short : payload.length ≤ 65535)
    (draw : s.env.allocs = none :: rest) :
    ∃ t', exec (.rxByte hi) t = .next t' ∧ Discarding s (lenOf payload) [] t' := by
  obtain ⟨listening, ⟨ring, mem, log, env⟩, cnt, -, -, len⟩ := await
  have received := receive_byte3_drawn_failure listening.framing hi cnt (len ▸ lenOf_ne_zero short nonempty)
    (env ▸ draw)
  rw [len] at received
  obtain ⟨w, served, next⟩ := listening.rxByte received
  refine ⟨_, served, next, ring.trans (by simp [SameRing, SameQueue]), (answer_mem _ _).trans mem,
    (answer_log _ _).trans (by rw [log]), congrArg BitVec.toNat (answer_cnt _ _), answer_len _ _, answer_discard _ _⟩

/-- A payload byte that is not the last is counted (R69, R74). -/
theorem Discarding.byte {s t : State} {n : Len} {done : List Byte} (h : Discarding s n done t) (b : Byte)
    (more : done.length + 1 < n.toNat) : ∃ t', exec (.rxByte b) t = .next t' ∧ Discarding s n (done ++ [b]) t' := by
  obtain ⟨listening, ring, mem, log, cnt, len, discard⟩ := h
  have framing := listening.framing
  have total := framing.total_eq (by omega)
  have received := receive_payload framing b (by omega) (by rw [total, len]; omega)
  rw [takePayload_dropped b discard] at received
  obtain ⟨w, served, next⟩ := listening.rxByte received
  refine ⟨_, served, next, ring.trans (answer_sameRing w (countByte t)), (answer_mem _ _).trans mem,
    (answer_log _ _).trans log, ?_, (answer_len _ _).trans len, (answer_discard _ _).trans discard⟩
  rw [answer_cnt, countByte_cnt, framing.cnt_succ, cnt, List.length_append, List.length_singleton]
  omega

/-- The last byte of a discarded frame ends it and answers Ok (R71, R74). -/
theorem Discarding.last {s t : State} {n : Len} {done : List Byte} (h : Discarding s n done t) (b : Byte)
    (last : done.length + 1 = n.toNat) :
    exec (.rxByte b) t = .next (answer (0x00#8 ++ t.status ++ 0x0000#16) (decoderReset (countByte t))) := by
  obtain ⟨listening, -, -, -, cnt, len, discard⟩ := h
  have framing := listening.framing
  have total := framing.total_eq (by omega)
  have received := receive_last framing b (by omega) (by rw [total, len]; omega)
  have dropped : finalize (countByte t) = (.ok, 0x0000#16, decoderReset (countByte t)) := if_pos discard
  rw [takePayload_dropped b discard, dropped] at received
  rw [exec_rxByte_answer (listening.serving b) received, Code.num]
  rfl

/-- Settles O43: byte 3 starts to discard, the payload but its last byte is counted, and the last byte ends the
frame. -/
theorem abandonedFrameIsCountedOut : Obligations.AbandonedFrameIsCountedOut := by
  intro s m f payload rest run port idle nonempty short draw
  obtain ⟨t, hi, all, await⟩ := execAll_frame ⟨run, port, idle.framing⟩ idle m f payload
  obtain ⟨t', served, start⟩ := Discarding.start await nonempty short draw
  obtain ⟨front, b, rfl⟩ : ∃ front b, payload = front ++ [b] :=
    ⟨payload.dropLast, payload.getLast nonempty, (List.dropLast_append_getLast nonempty).symm⟩
  have size := lenOf_toNat short
  rw [List.length_append, List.length_singleton] at size
  obtain ⟨u, counted, hu⟩ := execAll_payload (P := Discarding s (lenOf (front ++ [b])))
    (fun done b _ h more => h.byte b more) front [.rxByte b] start (by rw [size, List.length_nil]; omega)
  rw [List.nil_append] at hu
  obtain ⟨listening', ring, mem, log, -, -, -⟩ := id hu
  obtain ⟨-, head, tail, queueSize, status, slots⟩ := ring
  have frame : execAll (frameRequests m f (front ++ [b])) s = execAll [.rxByte b] u := by
    rw [all, execAll_cons served, List.map_append, List.map_singleton, counted]
  refine ⟨_, frame.trans (execAll_last (hu.last b (by omega))), by simp [DecoderIdle],
    by simp [SameQueue, head, tail, queueSize, status, slots], (answer_mem _ _).trans mem,
    (answer_log _ _).trans log, ?_⟩
  rw [← status, port, ← listening'.port]
  exact answer_rsp _ (decoderReset (countByte u))

/-! ## The frame that round-trips -/

theorem SameRing.status {s t : State} (same : SameRing s t) : t.status = s.status := by
  obtain ⟨-, -, -, -, status, -⟩ := same
  exact status

/-- `h` is a handle that an allocation can take (R78). -/
structure FreeHandle (s : State) (h : Handle) : Prop where
  ne : h ≠ 0x0000#16
  free : Memory.live s.mem h.toNat = false

/-- `t` holds the bytes `done` of a frame of `n` payload bytes with the ids `m` and `f` in the working record `w`, all
else of the records, the queue and the log being as in `s`, and `allocs` being the draws to come (R69). -/
structure Filling (s : State) (m f : Byte) (w : Handle) (n : Len) (allocs : List (Option Handle)) (done : List Byte)
    (t : State) : Prop where
  listening : Listening t
  ring : SameRing s t
  log : t.log = s.log
  allocs : t.env.allocs = allocs
  cnt : t.cnt.toNat = 4 + done.length
  len : t.len = n
  wmod : t.wmod = m
  wfun : t.wfun = f
  wh : t.wh = w
  keeps : t.discard = false
  wf : Memory.wf t.mem = true
  stored : ∃ r, Memory.find t.mem w.toNat = some r ∧ r.dlen = n ∧ r.pay.take done.length = done
  others : ∀ g, g ≠ w.toNat → Memory.find t.mem g = Memory.find s.mem g

/-- Byte 3 with a free handle drawn starts to fill that handle's record (R68). -/
theorem Filling.start {s t : State} {m f hi : Byte} {payload : List Byte} {w : Handle} {allocs : List (Option Handle)}
    (await : AwaitsLength s m f payload hi t) (nonempty : payload ≠ []) (short : payload.length ≤ 65535)
    (wf : Memory.wf s.mem = true) (draw : s.env.allocs = some w :: allocs) (free : FreeHandle s w) :
    ∃ t', exec (.rxByte hi) t = .next t' ∧ Filling s m f w (lenOf payload) allocs [] t' := by
  obtain ⟨listening, ⟨ring, mem, log, env⟩, cnt, wmod, wfun, len⟩ := await
  obtain ⟨ne, free⟩ := free
  have framing := listening.framing
  obtain ⟨-, -, keeps⟩ := framing.header cnt
  have received := receive_byte3_drawn framing hi cnt (len ▸ lenOf_ne_zero short nonempty) (env ▸ draw) ne (mem ▸ free)
  rw [len, mem] at received
  obtain ⟨x, served, next⟩ := listening.rxByte received
  refine ⟨_, served, next, ring.trans (by simp [SameRing, SameQueue]), (answer_log _ _).trans log,
    congrArg Env.allocs (answer_env _ _), congrArg BitVec.toNat (answer_cnt _ _), answer_len _ _,
    (answer_wmod _ _).trans wmod, (answer_wfun _ _).trans wfun, answer_wh _ _, (answer_discard _ _).trans keeps, ?_,
    ⟨freshRecord t.env.tick (lenOf payload), ?_, rfl, rfl⟩, fun g hg => ?_⟩
  · rw [answer_mem]
    exact Memory.wf_insert wf (handle_pos ne) w.isLt (freshRecord_pay_length _ _)
  · rw [answer_mem]
    exact Memory.find_insert_self _ _ _
  · rw [answer_mem]
    exact Memory.find_insert_other _ _ hg

/-- A byte stored behind the bytes `done` of a buffer. -/
theorem take_set_length {buffer done : List Byte} (b : Byte) (front : buffer.take done.length = done)
    (lt : done.length < buffer.length) :
    (buffer.set done.length b).take (done ++ [b]).length = done ++ [b] := by
  have whole : buffer.set done.length b = (done ++ [b]) ++ buffer.drop (done.length + 1) := by
    rw [List.set_eq_take_append_cons_drop, if_pos lt, front, List.append_assoc, List.singleton_append]
  rw [whole, List.take_left]

/-- A payload byte that is not the last is stored behind the earlier ones (R69). -/
theorem Filling.byte {s t : State} {m f : Byte} {w : Handle} {n : Len} {allocs : List (Option Handle)}
    {done : List Byte} (h : Filling s m f w n allocs done t) (b : Byte) (more : done.length + 1 < n.toNat) :
    ∃ t', exec (.rxByte b) t = .next t' ∧ Filling s m f w n allocs (done ++ [b]) t' := by
  obtain ⟨listening, ring, log, draws, cnt, len, wmod, wfun, rfl, keeps, wf, ⟨r, live, dlen, front⟩, others⟩ := h
  have framing := listening.framing
  have total := framing.total_eq (by omega)
  have received := receive_payload framing b (by omega) (by rw [total, len]; omega)
  obtain ⟨pos, lt, payLen⟩ := Memory.wf_find wf live
  rw [takePayload_stored framing b (by omega) keeps wf live (dlen.trans len.symm),
    show t.cnt.toNat - 4 = done.length by omega] at received
  generalize stored : ({ r with pay := r.pay.set done.length b } : Record) = r' at received
  obtain ⟨x, served, next⟩ := listening.rxByte received
  refine ⟨_, served, next, ring.trans (answer_sameRing x (countByte { t with mem := _ })), (answer_log _ _).trans log,
    (congrArg Env.allocs (answer_env _ _)).trans draws, ?_, (answer_len _ _).trans len, (answer_wmod _ _).trans wmod,
    (answer_wfun _ _).trans wfun, answer_wh _ _, (answer_discard _ _).trans keeps, ?_, ⟨r', ?_, ?_, ?_⟩, fun g hg => ?_⟩
  · rw [answer_cnt, countByte_cnt, framing.cnt_succ, cnt, List.length_append, List.length_singleton]
    omega
  · rw [answer_mem]
    exact Memory.wf_insert wf pos lt (by rw [← stored, List.length_set]; exact payLen)
  · rw [answer_mem]
    exact Memory.find_insert_self _ _ _
  · rw [← stored]
    exact dlen
  · rw [← stored]
    exact take_set_length b front (by rw [payLen, dlen]; omega)
  · rw [answer_mem]
    exact (Memory.find_insert_other _ _ hg).trans (others g hg)

/-- The Command `h` with the record `c` is enqueued in a state whose queue and log are those of `s`, the decoder is idle
and of the records only `h`'s differs from those of `s` (R71, R73, R86). -/
structure Delivered (s : State) (h : Handle) (c : Record) (rest : List (Option Handle)) (t : State) : Prop where
  idle : DecoderIdle t
  ring : ∃ u, SameRing s u ∧ SameRing (enqueued h u) t
  found : ∀ g, Memory.find t.mem g = if g = h.toNat then some c else Memory.find s.mem g
  log : t.log = s.log
  allocs : t.env.allocs = rest
  rsp : (t.port .producer).rsp = some (0x00#8 ++ t.status ++ h)

/-- What Finalize leaves of a frame that is enqueued, with its response, delivers the Command. -/
theorem Delivered.of_finalize {s t : State} {h : Handle} {c : Record} {rest : List (Option Handle)} {mem : Memory}
    {k : Nat} (ring : SameRing s t) (port : t.active = .producer) (log : t.log = s.log)
    (found : ∀ g, Memory.find mem g = if g = h.toNat then some c else Memory.find s.mem g) :
    Delivered s h c rest (answer (0x00#8 ++
      (enqueued h (decoderReset { t with mem := mem, env := { t.env with allocs := rest, tick := k } })).status ++ h)
      (enqueued h (decoderReset { t with mem := mem, env := { t.env with allocs := rest, tick := k } }))) := by
  refine ⟨by simp [DecoderIdle], ⟨_, ring, ?_⟩, fun g => ?_, (answer_log _ _).trans log, by rw [answer_env]; rfl, ?_⟩
  · exact (SameRing.enqueued (s := t) ⟨rfl, rfl, rfl, rfl, rfl, rfl⟩ h).trans (answer_sameRing _ _)
  · rw [answer_mem]
    exact found g
  · rw [answer_status, ← port]
    exact answer_rsp _ (enqueued h (decoderReset _))

/-- A delivered Command is the newest of the queue's contents (R94). -/
theorem Delivered.queue {s t : State} {h : Handle} {c : Record} {rest : List (Option Handle)}
    (d : Delivered s h c rest t) (inv : QueueInv s) (ne : h ≠ 0x0000#16) (room : s.size < s.cap) :
    QueueInv t ∧ queueContents t = queueContents s ++ [h] := by
  obtain ⟨u, before, after⟩ := d.ring
  have ring := (before.enqueued h).trans after
  have next := inv.enqueued ne room
  refine ⟨next.sameRing ring, ?_⟩
  rw [queueContents_congr next ring.1 ring.2, queueContents_enqueued inv h room]

/-- The last byte of a frame delivers its Command, which holds the ids and the whole payload (R70, R71). -/
theorem Filling.last {s t : State} {m f : Byte} {w h : Handle} {n : Len} {rest : List (Option Handle)}
    {done : List Byte} (fill : Filling s m f w n (some h :: rest) done t) (b : Byte) (last : done.length + 1 = n.toNat)
    (room : putFailure s.status = none) (freeH : FreeHandle s h) (freeW : FreeHandle s w) (distinct : w ≠ h) :
    ∃ t', exec (.rxByte b) t = .next t' ∧
      Delivered s h { modId := m, funId := f, dlen := n, pay := done ++ [b] } rest t' := by
  obtain ⟨listening, ring, log, draws, cnt, rfl, rfl, rfl, rfl, keeps, wf, ⟨r, live, dlen, front⟩, others⟩ := fill
  have framing := listening.framing
  have total := framing.total_eq (by omega)
  have hw : h.toNat ≠ t.wh.toNat := fun e => distinct (BitVec.eq_of_toNat_eq e.symm)
  have freeStill : Memory.live t.mem h.toNat = false := by rw [Memory.live, others _ hw]; exact freeH.free
  obtain ⟨mem, k, received, found⟩ := receive_last_enqueued framing b (by omega) (by omega) wf keeps freeW.ne live dlen
    draws freeH.ne freeStill (by rw [ring.status]; exact room)
  have payLen := (Memory.wf_find wf live).2.2
  have whole : r.pay.set (t.cnt.toNat - 4) b = done ++ [b] := by
    have taken := take_set_length b front (by rw [payLen, dlen]; omega)
    rw [show t.cnt.toNat - 4 = done.length by omega, ← taken, List.take_of_length_le]
    rw [List.length_set, payLen, dlen, List.length_append, List.length_singleton, last]
  rw [whole] at found
  refine ⟨_, exec_rxByte_answer (listening.serving b) received,
    .of_finalize ring listening.port log fun g => ?_⟩
  rw [found]
  by_cases hg : g = t.wh.toNat
  · rw [hg, if_neg (Ne.symm hw), if_pos rfl, if_neg (Ne.symm hw), Memory.live_eq_false.1 freeW.free]
  · rw [if_neg hg, others g hg]

/-- Byte 3 of a frame without payload delivers its Command (R68, R72). -/
theorem execAll_empty_payload {s t : State} {m f hi : Byte} {h : Handle} {rest : List (Option Handle)}
    (await : AwaitsLength s m f [] hi t) (room : putFailure s.status = none) (draw : s.env.allocs = some h :: rest)
    (free : FreeHandle s h) :
    ∃ t', execAll [.rxByte hi] t = .next t' ∧
      Delivered s h { modId := m, funId := f, dlen := lenOf [], pay := [] } rest t' := by
  obtain ⟨listening, ⟨ring, mem, log, env⟩, cnt, wmod, wfun, len⟩ := await
  obtain ⟨ne, free⟩ := free
  have framing := listening.framing
  obtain ⟨-, noBuffer, keeps⟩ := framing.header cnt
  obtain ⟨mem', received, found⟩ := finalize_enqueued (s := { t with len := 0#16, cnt := 4#17 }) keeps (env ▸ draw) ne
    (mem ▸ free) (by rw [ring.status]; exact room)
    (fun e => ne (BitVec.eq_of_toNat_eq (e.trans (congrArg BitVec.toNat noBuffer))))
  rw [← receive_byte3_empty framing hi cnt len] at received
  refine ⟨_, execAll_last (exec_rxByte_answer (listening.serving hi) received),
    Delivered.of_finalize (t := { t with len := 0#16, cnt := 4#17 }) ring listening.port log
      fun g => ?_⟩
  rw [found, mem]
  simp [commandRecord, wmod, wfun, noBuffer, lenOf]

/-- The rest of a frame with payload, from byte 3 on, delivers its Command: the byte starts to fill its
buffer, the payload but its last byte goes on, and the last byte ends the frame. -/
theorem execAll_payload_delivered {s t : State} {m f hi : Byte} {payload : List Byte} {w h : Handle}
    {rest : List (Option Handle)} (await : AwaitsLength s m f payload hi t) (nonempty : payload ≠ [])
    (short : payload.length ≤ 65535) (room : putFailure s.status = none) (wf : Memory.wf s.mem = true)
    (draw : s.env.allocs = some w :: some h :: rest) (freeH : FreeHandle s h) (freeW : FreeHandle s w)
    (distinct : w ≠ h) :
    ∃ t', execAll (.rxByte hi :: payload.map .rxByte) t = .next t' ∧
      Delivered s h { modId := m, funId := f, dlen := lenOf payload, pay := payload } rest t' := by
  obtain ⟨t0, served, start⟩ := Filling.start await nonempty short wf draw freeW
  obtain ⟨front, b, rfl⟩ : ∃ front b, payload = front ++ [b] :=
    ⟨payload.dropLast, payload.getLast nonempty, (List.dropLast_append_getLast nonempty).symm⟩
  have size := lenOf_toNat short
  rw [List.length_append, List.length_singleton] at size
  obtain ⟨u, filled, hu⟩ := execAll_payload (P := Filling s m f w (lenOf (front ++ [b])) (some h :: rest))
    (fun done b _ fill more => fill.byte b more) front [.rxByte b] start (by rw [size, List.length_nil]; omega)
  rw [List.nil_append] at hu
  obtain ⟨t', last, delivered⟩ := hu.last b (by omega) room freeH freeW distinct
  refine ⟨t', ?_, delivered⟩
  rw [execAll_cons served, List.map_append, List.map_singleton, filled, execAll_last last]

/-- Settles O42: the header, then byte 3 alone or the payload; either way the Command is delivered. -/
theorem frameRoundTrips : Obligations.FrameRoundTrips := by
  intro s m f payload w h rest run port inv idle wf room short ne free neW freeW distinct draw
  obtain ⟨t, hi, all, await⟩ := execAll_frame ⟨run, port, idle.framing⟩ idle m f payload
  have admits := inv.putFailure_none_iff.2 room
  have delivers : ∃ t', execAll (.rxByte hi :: payload.map .rxByte) t = .next t' ∧
      Delivered s h { modId := m, funId := f, dlen := lenOf payload, pay := payload } rest t' := by
    by_cases empty : payload = []
    · subst empty
      exact execAll_empty_payload await admits draw ⟨ne, free⟩
    · rw [if_neg empty] at draw
      exact execAll_payload_delivered await empty short admits wf draw ⟨ne, free⟩ ⟨neW, freeW⟩ distinct
  obtain ⟨t', rests, delivered⟩ := delivers
  obtain ⟨queue, contents⟩ := delivered.queue inv ne room
  exact ⟨t', all.trans rests, delivered.idle, queue, contents, delivered.found, delivered.log, delivered.allocs,
    port ▸ delivered.rsp⟩

end Machine

end Sys2Proof

/-! PROOFS. What every operation and every step keeps: the invariants (R29, R30), the capacity, MODE, the writers of
HEAD and TAIL, and the log (R17 to R20, R43, R96). -/

namespace Sys2Proof

namespace Machine

/-! ## The invariants -/

/-- Every operation keeps the record store canonical (log entry 21). -/
theorem Effect.wf {i : Instr} {r : Code} {v : Handle} {s u : State} (h : Effect s i r v u)
    (wf : Memory.wf s.mem = true) : Memory.wf u.mem = true := by
  cases h with
  | kept => exact wf
  | constructed => rfl
  | halted => exact halted_wf _
  | @received b _ _ _ e =>
    have kept := (receive_shape b s).1 wf
    rwa [e] at kept
  | stored => exact wf
  | taken => exact wf
  | allocFailed => exact wf
  | allocated ne => exact Memory.wf_insert wf (handle_pos ne) v.isLt (freshRecord_pay_length _ _)
  | released => exact Memory.wf_erase _ wf

theorem runWord_wf {w : Word} {s t : State} (h : runWord w s = .next t) (wf : Memory.wf s.mem = true) :
    Memory.wf t.mem = true := by
  unfold runWord at h
  split at h
  · obtain ⟨r, v, u, effect, rfl⟩ := exec_effect h
    rw [respond_mem]
    exact effect.wf wf
  · cases h
    rwa [raise, respond_mem]

/-- Every step keeps the record store canonical. -/
theorem step_wf {s t : State} (h : step s = .next t) (wf : Memory.wf s.mem = true) : Memory.wf t.mem = true := by
  rcases step_cases h with ⟨-, rfl⟩ | ⟨c, w, rest, serves, tick, -, -, ht⟩
  · exact wf
  · exact runWord_wf ht (by rwa [inService_mem])

/-- Settles O44: the queue, the framing and the record store are each kept by every step. -/
theorem stepKeepsTheInvariants : Obligations.StepKeepsTheInvariants := by
  rintro s t ⟨pos, wf, inv⟩ h
  obtain ⟨tPos, queue⟩ := RunQueue.step ⟨pos, fun run => (inv run).1⟩ h
  exact ⟨tPos, step_wf h wf, fun run => ⟨queue run, RunFraming.step (fun run => (inv run).2) h run⟩⟩

theorem reset_idle : DecoderIdle State.reset := by decide

theorem reset_blockInv : BlockInv State.reset :=
  ⟨Nat.succ_pos _, rfl, fun _ => ⟨reset_queueInv, reset_idle.framing⟩⟩

/-- Settles O46: the queue is a constructed one and the decoder is idle. -/
theorem resetStateMeetsTheInvariants : Obligations.ResetStateMeetsTheInvariants :=
  ⟨reset_blockInv, reset_idle.working⟩

/-- Settles O48: each register of State.reset, by evaluation. -/
theorem resetStateHoldsTheResetValues : Obligations.ResetStateHoldsTheResetValues :=
  ⟨rfl, rfl, rfl, rfl, rfl, rfl, reset_idle, rfl, rfl⟩

/-- In every state a run reaches the record store is canonical, also after an owner's write (log entry 22). -/
theorem Reached.wf {s : State} (h : Reached s) : Memory.wf s.mem = true := by
  induction h with
  | reset => rfl
  | step _ h ih => exact step_wf h ih
  | issued c w _ ih => rwa [issue, State.setPort_mem]
  | chosen e _ ih => exact ih
  | @written s h m f pay _ ih =>
    obtain ⟨mem, hm, -, -, kept⟩ := ownerWrites_shape h m f pay s
    rw [hm]
    exact kept ih

/-- Settles O47: the three parts are kept along every run. -/
theorem reachedStatesMeetTheInvariants : Obligations.ReachedStatesMeetTheInvariants := fun _ h =>
  ⟨h.runQueue.1, h.wf, fun run => ⟨h.queueInv run, h.runFraming run⟩⟩

/-! ## The working buffer -/

/-- The working buffer is kept where the decoder's registers and the working handle's record are. -/
theorem WorkingInv.congr {s t : State} (work : WorkingInv s) (same : SameDecoder s t)
    (buffer : ∀ r, Memory.find s.mem s.wh.toNat = some r → Memory.find t.mem s.wh.toNat = some r) : WorkingInv t := by
  obtain ⟨cnt, -, len, -, -, wh, discard⟩ := same
  intro ge
  rw [cnt] at ge
  refine (work ge).imp ?_ ?_
  · rintro ⟨ne, keeps, live⟩
    obtain ⟨r, found, dlen⟩ := Option.map_eq_some_iff.1 live
    exact ⟨by rwa [wh], by rwa [discard], by rw [wh, buffer r found, len, ← dlen]; rfl⟩
  · rintro ⟨none, drops⟩
    exact ⟨by rwa [wh], by rwa [discard]⟩

/-- Every operation but a DEALLOC of the working handle keeps the working buffer (R30 item 3). -/
theorem Effect.working {i : Instr} {r : Code} {v : Handle} {s u : State} (h : Effect s i r v u) (run : u.mode = .run)
    (inv : FramingInv s) (work : WorkingInv s) (other : ∀ g, i = .dealloc g → g ≠ s.wh ∨ g = 0x0000#16) :
    WorkingInv u := by
  cases h with
  | kept => exact work
  | constructed => exact (constructed_idle _).working
  | halted => cases run
  | @received b _ _ _ e =>
    have kept := work.receive inv b
    rwa [e] at kept
  | stored => exact work
  | taken => exact work
  | allocFailed => exact work
  | allocated ne free =>
    refine work.congr ⟨rfl, rfl, rfl, rfl, rfl, rfl, rfl⟩ fun r live => ?_
    have distinct : s.wh.toNat ≠ v.toNat := fun same => by
      rw [← same, Memory.live, live] at free
      cases free
    exact (Memory.find_insert_other _ _ distinct).trans live
  | @released h ne _ =>
    refine work.congr ⟨rfl, rfl, rfl, rfl, rfl, rfl, rfl⟩ fun r live => ?_
    have distinct : s.wh.toNat ≠ h.toNat := fun same =>
      (other h rfl).elim (fun away => away (BitVec.eq_of_toNat_eq same.symm)) ne
    exact (Memory.find_erase_other _ distinct).trans live

/-- Settles O45: the operation's effect keeps the buffer (`Effect.working`), and so does the response. -/
theorem workingBufferIsKept : Obligations.WorkingBufferIsKept := by
  intro i s t _ inv work h run other
  obtain ⟨r, v, u, effect, rfl⟩ := exec_effect h
  rw [respond_mode] at run
  exact (effect.working run inv work other).congr (respond_sameDecoder _ _ _) fun _ live => by rwa [respond_mem]

/-! ## The capacity, MODE, HEAD and TAIL -/

/-- No operation changes the capacity (R6, R18). -/
theorem Effect.cap {i : Instr} {r : Code} {v : Handle} {s u : State} (h : Effect s i r v u) : u.cap = s.cap := by
  cases h with
  | @received b _ _ _ e =>
    have kept := (receive_outside b s).1
    rwa [e] at kept
  | kept | constructed | halted | stored | taken | allocFailed | allocated | released => rfl

/-- Only RESET on port K changes MODE (R17). -/
theorem Effect.mode {i : Instr} {r : Code} {v : Handle} {s u : State} (h : Effect s i r v u) :
    u.mode = s.mode ∨ i = .reset ∧ s.active = .control := by
  cases h with
  | constructed port => exact .inr ⟨rfl, port⟩
  | halted port => exact .inr ⟨rfl, port⟩
  | @received b _ _ _ e =>
    have kept := receive_mode b s
    rw [e] at kept
    exact .inl kept
  | kept | stored | taken | allocFailed | allocated | released => exact .inl rfl

theorem runWord_cap {w : Word} {s t : State} (h : runWord w s = .next t) : t.cap = s.cap := by
  unfold runWord at h
  split at h
  · obtain ⟨r, v, u, effect, rfl⟩ := exec_effect h
    rw [respond_cap, effect.cap]
  · cases h
    rw [raise, respond_cap]

theorem step_cap {s t : State} (h : step s = .next t) : t.cap = s.cap := by
  rcases step_cases h with ⟨-, rfl⟩ | ⟨c, w, rest, serves, tick, -, -, ht⟩
  · rfl
  · rw [runWord_cap ht, inService_cap]

/-- Settles O49: `Effect.cap`, `Effect.mode` and `step_cap`. -/
theorem capacityIsFixedAndOnlyResetChangesMode : Obligations.CapacityIsFixedAndOnlyResetChangesMode := by
  refine ⟨fun i s t h => ?_, fun s t => step_cap, fun _ => rfl⟩
  obtain ⟨r, v, u, effect, rfl⟩ := exec_effect h
  rw [respond_cap, respond_mode]
  exact ⟨effect.cap, effect.mode.resolve_left⟩

/-- RX_BYTE changes TAIL on no path (R20). -/
theorem receive_tail (b : Byte) (s : State) : (receive b s).2.2.tail = s.tail := by
  obtain ⟨-, -, same | ⟨f, s1, -, -, same, ht⟩⟩ := receive_shape b s
  · rw [same]
  · rw [ht, enqueued_tail, same]

/-- Settles O50: of the effects only `stored`, `received` and RESET's change HEAD, and only `taken` and RESET's TAIL. -/
theorem headAndTailHaveOneWriterEach : Obligations.HeadAndTailHaveOneWriterEach := by
  intro i s t h
  obtain ⟨r, v, u, effect, rfl⟩ := exec_effect h
  rw [respond_head, respond_tail]
  cases effect with
  | constructed | halted => exact ⟨fun _ => .inr (.inr rfl), fun _ => .inr rfl⟩
  | @received b _ _ _ e =>
    have kept := receive_tail b s
    rw [e] at kept
    exact ⟨fun _ => .inr (.inl ⟨b, rfl⟩), fun moved => absurd kept moved⟩
  | @stored g => exact ⟨fun _ => .inl ⟨g, rfl⟩, fun moved => absurd rfl moved⟩
  | taken => exact ⟨fun moved => absurd rfl moved, fun _ => .inl rfl⟩
  | kept | allocFailed | allocated | released => exact ⟨fun moved => absurd rfl moved, fun moved => absurd rfl moved⟩

/-! ## The kinds of bytes -/

/-- The byte `b` does not end its frame. -/
abbrev InsideFrame (b : Byte) (s : State) : Prop :=
  s.cnt.toNat ≤ 2 ∨ (s.cnt = 3#17 ∧ s.len + (b.setWidth 16 <<< 8) ≠ 0#16) ∨
    (4 ≤ s.cnt.toNat ∧ s.cnt.toNat + 1 < s.total.toNat)

theorem FramingInv.inside_or_ends {s : State} (inv : FramingInv s) (b : Byte) : InsideFrame b s ∨ EndsFrame b s := by
  obtain ⟨lt, -⟩ := inv
  rcases Nat.lt_trichotomy s.cnt.toNat 3 with low | three | high
  · exact .inl (.inl (by omega))
  · have cnt : s.cnt = 3#17 := count_eq three
    by_cases zero : s.len + (b.setWidth 16 <<< 8) = 0#16
    · exact .inr (.inl ⟨cnt, zero⟩)
    · exact .inl (.inr (.inl ⟨cnt, zero⟩))
  · by_cases last : s.cnt.toNat + 1 = s.total.toNat
    · exact .inr (.inr ⟨high, last⟩)
    · exact .inl (.inr (.inr ⟨high, by omega⟩))

/-- `ByteInside b s r u`: from `s` the byte `b`, which does not end its frame, can leave `u` and answer `r` (R66 to
R69, R74). -/
inductive ByteInside (b : Byte) (s : State) : Code → State → Prop where
  | moduleId (h : s.cnt = 0#17) : ByteInside b s .ok { s with wmod := b, cnt := 1#17 }
  | functionId (h : s.cnt = 1#17) : ByteInside b s .ok { s with wfun := b, cnt := 2#17 }
  | lengthLow (h : s.cnt = 2#17) : ByteInside b s .ok { s with len := b.setWidth 16, cnt := 3#17 }
  | buffer (h : s.cnt = 3#17) {n : Len} {c : Count} {w : Handle} {e : Env} {k : Nat}
      (free : Memory.live s.mem w.toNat = false) :
      ByteInside b s .ok { s with
        len := n, total := c, wh := w, cnt := 4#17, mem := Memory.insert s.mem w.toNat (freshRecord k n), env := e }
  | abandoned (h : s.cnt = 3#17) {n : Len} {c : Count} {e : Env} :
      ByteInside b s .allocationError { s with
        len := n, total := c, wh := 0x0000#16, discard := true, cnt := 4#17
        log := s.log ++ [eventOf .allocationError], env := e }
  | payload (ge : 4 ≤ s.cnt.toNat) {m : Memory} {k : Nat}
      (taken : takePayload b s = { s with mem := m, env := { s.env with tick := k } }) :
      ByteInside b s .ok { s with cnt := s.cnt + 1#17, mem := m, env := { s.env with tick := k } }

/-- Everything a byte that does not end its frame can do. -/
theorem receive_inside {s : State} (inv : FramingInv s) {b : Byte} (inside : InsideFrame b s) :
    ∃ r u, receive b s = (r, 0x0000#16, u) ∧ ByteInside b s r u := by
  rcases inside with low | ⟨cnt, nonempty⟩ | ⟨ge, more⟩
  · have cases : s.cnt.toNat = 0 ∨ s.cnt.toNat = 1 ∨ s.cnt.toNat = 2 := by omega
    rcases cases with h | h | h
    · exact ⟨_, _, receive_byte0 inv b (count_eq h), .moduleId (count_eq h)⟩
    · exact ⟨_, _, receive_byte1 inv b (count_eq h), .functionId (count_eq h)⟩
    · exact ⟨_, _, receive_byte2 inv b (count_eq h), .lengthLow (count_eq h)⟩
  · rcases receive_byte3_cases inv b cnt nonempty with ⟨e, received⟩ | ⟨w, e, k, -, free, received⟩
    · exact ⟨_, _, received, .abandoned cnt⟩
    · exact ⟨_, _, received, .buffer cnt free⟩
  · obtain ⟨m, k, taken, -⟩ := takePayload_frame b ge
    refine ⟨_, _, receive_payload inv b ge more, ?_⟩
    rw [taken]
    exact .payload ge taken

/-! ## The log -/

/-- The log of `u` is that of `s` and at most one event more, with one of the three codes of R96. -/
def LogsAtMostOne (s u : State) : Prop :=
  ∃ es : List Event, u.log = s.log ++ es ∧ es.length ≤ 1 ∧
    ∀ e ∈ es, e = eventOf .allocationError ∨ e = eventOf .queueFull ∨ e = eventOf .queueInvalid

theorem LogsAtMostOne.none {s u : State} (h : u.log = s.log) : LogsAtMostOne s u :=
  ⟨[], by rw [h, List.append_nil], Nat.zero_le _, by simp⟩

theorem LogsAtMostOne.one {s u : State} {c : Code} (h : u.log = s.log ++ [eventOf c])
    (code : c = .allocationError ∨ c = .queueFull ∨ c = .queueInvalid) : LogsAtMostOne s u := by
  refine ⟨[eventOf c], h, Nat.le_refl _, fun e he => ?_⟩
  rw [List.mem_singleton.1 he]
  exact code.imp (congrArg _) (Or.imp (congrArg _) (congrArg _))

/-- Finalize logs the failure of the Command's allocation or of its PUT, and nothing else (R71). -/
theorem finalize_logs (s : State) : LogsAtMostOne s (finalize s).2.2 := by
  rcases finalize_cases s with ⟨-, h⟩ | ⟨-, m, e, -, -, -, -, h | ⟨f, -, -, -, -, h⟩ | ⟨c, refused, h⟩⟩ <;> rw [h]
  · exact .none rfl
  · exact .one rfl (.inl rfl)
  · exact .none rfl
  · exact .one rfl (.inr (putFailure_ne_ok refused))

theorem ByteInside.logs {b : Byte} {s u : State} {r : Code} (h : ByteInside b s r u) : LogsAtMostOne s u := by
  cases h with
  | abandoned => exact .one rfl (.inl rfl)
  | moduleId | functionId | lengthLow | buffer | payload => exact .none rfl

/-- A byte logs at most one event: one inside a frame does not come to Finalize, and one that ends its frame logs
nothing before it (R74, R96). -/
theorem FramingInv.receive_logs {s : State} (inv : FramingInv s) (b : Byte) :
    LogsAtMostOne s (Machine.receive b s).2.2 := by
  rcases inv.inside_or_ends b with inside | ends
  · obtain ⟨r, u, received, byte⟩ := receive_inside inv inside
    rw [received]
    exact byte.logs
  · obtain ⟨c, m, e, received, -⟩ := receive_endsFrame inv ends
    rw [received]
    exact finalize_logs { s with cnt := c, len := if s.cnt = 3#17 then 0#16 else s.len, mem := m, env := e }

/-- No operation but RX_BYTE logs (R96). -/
theorem Effect.log {i : Instr} {r : Code} {v : Handle} {s u : State} (h : Effect s i r v u)
    (other : ∀ b, i ≠ .rxByte b) : u.log = s.log := by
  cases h with
  | @received b => exact absurd rfl (other b)
  | kept | constructed | halted | stored | taken | allocFailed | allocated | released => rfl

/-- Settles O51: RX_BYTE logs at most one event (`FramingInv.receive_logs`), and no other operation logs. -/
theorem onlyTheDecoderLogs : Obligations.OnlyTheDecoderLogs := by
  intro i s t inv h
  obtain ⟨r, v, u, effect, rfl⟩ := exec_effect h
  rw [respond_log]
  by_cases rx : ∃ b, i = .rxByte b
  · have logs : LogsAtMostOne s u := by
      obtain ⟨b, rfl⟩ := rx
      cases effect with
      | kept => exact .none rfl
      | received e =>
        have logs := inv.receive_logs b
        rwa [e] at logs
    obtain ⟨es, log, short, codes⟩ := logs
    exact ⟨es, log, short, fun _ => rx, codes⟩
  · have same := effect.log (not_exists.1 rx)
    exact ⟨[], by rw [same, List.append_nil], Nat.zero_le _, fun some => absurd rfl some, by simp⟩

end Machine

end Sys2Proof

/-! PROOFS. Frames: what each operation leaves unchanged (R36, R38), and the Consumer Loop (R98). -/

namespace Sys2Proof

namespace Machine

/-! ## The ports -/

/-- A response changes nothing outside the state but the response of the port in service. -/
theorem SamePorts.sameOutside {s u : State} (same : SamePorts s u) (cap : u.cap = s.cap) (mode : u.mode = s.mode)
    (r : Code) (v : Handle) : SameOutside s (Machine.respond r v u) := by
  have others := (same.respond r v).2
  obtain ⟨active, port⟩ := same
  refine ⟨?_, ?_, ?_, fun p => ?_, others⟩
  · rw [respond_cap, cap]
  · rw [respond_mode, mode]
  · rw [respond_active, active]
  · rw [respond_port_reqs, port]

/-- Every operation but RESET leaves what is outside it alone. -/
theorem Effect.sameOutside {i : Instr} {r : Code} {v : Handle} {s u : State} (h : Effect s i r v u)
    (other : i ≠ .reset) : SameOutside s (respond r v u) :=
  h.samePorts.sameOutside h.cap (h.mode.resolve_right fun reset => other reset.1) r v

/-! ## NOP, GET_STATUS, PUT and GET -/

/-- A second response on the port in service replaces the first. -/
theorem respond_respond (r r' : Code) (v v' : Handle) (s : State) :
    respond r v (respond r' v' s) = respond r v s := by
  unfold respond statOf State.setPort State.port
  cases s.active <;> rfl

/-- NOP and GET_STATUS respond and do nothing more, and do it again. -/
theorem exec_readOnly {i : Instr} {s t : State} (h : exec i s = .next t) (readOnly : i = .nop ∨ i = .getStatus) :
    ∃ r, t = respond r 0x0000#16 s ∧ exec i t = .next (respond r 0x0000#16 t) := by
  rcases exec_next h with ⟨serving, rfl⟩ | ⟨-, rfl, -, -⟩ | ⟨run, port, rfl⟩
  · have body : ∃ f : Byte → Code, bodyOf i = fun s => respond (f s.status) 0x0000#16 s := by
      rcases readOnly with rfl | rfl
      · exact ⟨fun _ => .ok, rfl⟩
      · exact ⟨statusCode, rfl⟩
    obtain ⟨f, body⟩ := body
    rw [body]
    refine ⟨_, rfl, ?_⟩
    have still : Serving i (respond (f s.status) 0x0000#16 s) :=
      ⟨(respond_mode _ _ _).trans serving.1, by rw [respond_active]; exact serving.2⟩
    rw [exec_serving still, body]
    simp only [respond_status]
  · rcases readOnly with h | h <;> cases h
  · exact ⟨.invalidArgument, rfl, exec_misrouted ((respond_mode _ _ _).trans run) (by rwa [raise, respond_active])⟩

/-- Settles O52: `exec_readOnly`, and a repeated response is the same response. -/
theorem nopAndGetStatusFrame : Obligations.NopAndGetStatusFrame := by
  intro i s t readOnly h
  obtain ⟨r, rfl, again⟩ := exec_readOnly h readOnly
  rw [respond_respond] at again
  exact ⟨(SamePorts.refl s).sameOutside rfl rfl _ _, (respond_sameRing _ _ _).2, respond_sameDecoder _ _ _,
    respond_mem _ _ _, respond_log _ _ _, respond_env _ _ _, again⟩

/-- Settles O53: PUT does nothing, or is `enqueued`. -/
theorem putFrame : Obligations.PutFrame := by
  intro h s t ht
  obtain ⟨r, v, u, effect, rfl⟩ := exec_effect ht
  refine ⟨effect.sameOutside nofun, ?_⟩
  cases effect with
  | kept => simp [SameDecoder, SameRecords]
  | stored ne room => simp +contextual [SameDecoder, SameRecords, List.getElem?_set_ne, Ne.symm]

/-- Settles O54: GET does nothing, or is `dequeued`. -/
theorem getFrame : Obligations.GetFrame := by
  intro s t ht
  obtain ⟨r, v, u, effect, rfl⟩ := exec_effect ht
  refine ⟨effect.sameOutside nofun, ?_⟩
  cases effect with
  | kept => simp [SameDecoder, SameRecords]
  | taken some => simp +contextual [SameDecoder, SameRecords, List.getElem?_set_ne, Ne.symm]

/-! ## ALLOC and DEALLOC -/

/-- Settles O55: ALLOC leaves the records alone, or puts a record at a handle that was not live, which it answers. -/
theorem allocFrame : Obligations.AllocFrame := by
  intro n s t ht
  obtain ⟨r, v, u, effect, rfl⟩ := exec_effect ht
  have rsp := congrArg PortState.rsp (effect.samePorts.respond r v).1
  refine ⟨effect.sameOutside nofun, ?_⟩
  cases effect with
  | kept => simp +contextual [SameQueue, SameDecoder, SameRecords]
  | allocFailed => simp +contextual [SameQueue, SameDecoder, SameRecords]
  | allocated ne free =>
    refine ⟨by simp [SameQueue], by simp [SameDecoder], by simp, fun g live => ?_, fun g dead live => ⟨_, rsp, ?_⟩⟩
    · have other : g ≠ v.toNat := fun same => by rw [same, free] at live; cases live
      rw [respond_mem]
      exact Memory.find_insert_other _ _ other
    · rw [dataField_responseWord]
      by_contra other
      rw [respond_mem, Memory.live, Memory.find_insert_other _ _ other, ← Memory.live, dead] at live
      cases live

/-- Settles O56: DEALLOC does nothing, or erases the record of its handle. -/
theorem deallocFrame : Obligations.DeallocFrame := by
  intro h s t ht
  obtain ⟨r, v, u, effect, rfl⟩ := exec_effect ht
  refine ⟨effect.sameOutside nofun, ?_⟩
  cases effect with
  | kept => simp [SameQueue, SameDecoder, SameRecords]
  | released ne live =>
    refine ⟨by simp [SameQueue], by simp [SameDecoder], by simp, by simp, fun g other => ?_⟩
    rw [respond_mem]
    exact Memory.find_erase_other _ other

/-! ## RX_BYTE inside a frame -/

/-- What a byte that does not end its frame leaves alone of the decoder, the records, the log and the choices. -/
def ByteFrame (s t : State) : Prop :=
  (s.cnt ≠ 0#17 → t.wmod = s.wmod) ∧ (s.cnt ≠ 1#17 → t.wfun = s.wfun) ∧
  (s.cnt ≠ 2#17 → s.cnt ≠ 3#17 → t.len = s.len) ∧
  (s.cnt ≠ 3#17 → t.total = s.total ∧ t.wh = s.wh ∧ t.discard = s.discard ∧ t.log = s.log ∧
    t.env.allocs = s.env.allocs ∧ t.env.builds = s.env.builds ∧ t.env.serves = s.env.serves) ∧
  (s.cnt.toNat ≤ 2 → t.mem = s.mem ∧ t.env = s.env) ∧
  (s.cnt = 3#17 → SameRecords (fun g => Memory.live s.mem g = true) s t) ∧
  (4 ≤ s.cnt.toNat → SameRecords (fun g => g ≠ s.wh.toNat) s t ∧
    (Memory.find t.mem s.wh.toNat).map (fun r => (r.dlen, r.pay.length)) =
      (Memory.find s.mem s.wh.toNat).map fun r => (r.dlen, r.pay.length)) ∧
  (4 ≤ s.cnt.toNat →
    (s.discard = true ∨ ∀ r, Memory.find s.mem s.wh.toNat = some r → s.cnt.toNat - 4 < r.pay.length) →
    t.env = s.env ∧
    (Memory.find t.mem s.wh.toNat).map (fun r => (r.modId, r.funId)) =
      (Memory.find s.mem s.wh.toNat).map (fun r => (r.modId, r.funId)) ∧
    ∀ (g : Handle) (j : Nat), ¬(g = s.wh ∧ j = s.cnt.toNat - 4) →
      Memory.byte t.mem g j = Memory.byte s.mem g j)

theorem ByteFrame.respond {s u : State} (h : ByteFrame s u) (r : Code) (v : Handle) :
    ByteFrame s (Machine.respond r v u) := by
  simpa [ByteFrame, SameRecords] using h

/-- A header byte, or no byte at all: only registers that are the byte's own may change. -/
theorem ByteFrame.of_registers {s t : State} (wmod : s.cnt ≠ 0#17 → t.wmod = s.wmod)
    (wfun : s.cnt ≠ 1#17 → t.wfun = s.wfun) (len : s.cnt ≠ 2#17 → t.len = s.len)
    (rest : t.total = s.total ∧ t.wh = s.wh ∧ t.discard = s.discard ∧ t.log = s.log) (mem : t.mem = s.mem)
    (env : t.env = s.env) : ByteFrame s t := by
  obtain ⟨total, wh, discard, log⟩ := rest
  refine ⟨wmod, wfun, fun h _ => len h, fun _ => ⟨total, wh, discard, log, ?_⟩, fun _ => ⟨mem, env⟩, fun _ g _ => ?_,
    fun _ => ⟨fun g _ => ?_, ?_⟩, fun _ _ => ⟨env, ?_, fun g j _ => ?_⟩⟩
  · rw [env]
    exact ⟨rfl, rfl, rfl⟩
  all_goals rw [mem]

/-- Byte 3 may change what is its own, and of the records only one that was not live. -/
theorem ByteFrame.of_byte3 {s t : State} (h : s.cnt = 3#17) (wmod : t.wmod = s.wmod) (wfun : t.wfun = s.wfun)
    (records : SameRecords (fun g => Memory.live s.mem g = true) s t) : ByteFrame s t := by
  have three : s.cnt.toNat = 3 := by rw [h]; rfl
  exact ⟨fun _ => wmod, fun _ => wfun, fun _ ne => absurd h ne, fun ne => absurd h ne, fun le => by omega,
    fun _ => records, fun ge => by omega, fun ge => by omega⟩

/-- The frame of every kind of byte inside a frame. -/
theorem ByteInside.frame {b : Byte} {s u : State} {r : Code} (h : ByteInside b s r u) : ByteFrame s u := by
  cases h with
  | moduleId h => exact .of_registers (absurd h) (fun _ => rfl) (fun _ => rfl) ⟨rfl, rfl, rfl, rfl⟩ rfl rfl
  | functionId h => exact .of_registers (fun _ => rfl) (absurd h) (fun _ => rfl) ⟨rfl, rfl, rfl, rfl⟩ rfl rfl
  | lengthLow h => exact .of_registers (fun _ => rfl) (fun _ => rfl) (absurd h) ⟨rfl, rfl, rfl, rfl⟩ rfl rfl
  | @buffer h n c w e k free =>
    refine .of_byte3 h rfl rfl fun g live => Memory.find_insert_other _ _ fun same => ?_
    rw [same, free] at live
    cases live
  | abandoned h => exact .of_byte3 h rfl rfl fun _ _ => rfl
  | @payload ge m k taken =>
    obtain ⟨m', k', taken', records, lengths, inside⟩ := takePayload_frame b ge
    rw [taken] at taken'
    obtain rfl : m = m' := congrArg State.mem taken'
    obtain rfl : k = k' := congrArg (fun s => s.env.tick) taken'
    have ne3 : s.cnt ≠ 3#17 := fun h => by rw [h] at ge; exact absurd ge (by decide)
    refine ⟨fun _ => rfl, fun _ => rfl, fun _ _ => rfl, fun _ => ⟨rfl, rfl, rfl, rfl, rfl, rfl, rfl⟩,
      fun le => by omega, fun h => absurd h ne3, fun _ => ⟨records, lengths⟩, fun _ within => ?_⟩
    obtain ⟨rfl, ids, bytes⟩ := inside within
    exact ⟨rfl, ids, bytes⟩

/-- A byte inside a frame leaves the queue alone. -/
theorem ByteInside.sameQueue {b : Byte} {s u : State} {r : Code} (h : ByteInside b s r u) : SameQueue s u := by
  cases h <;> exact ⟨rfl, rfl, rfl, rfl, rfl⟩

/-- Under the decoder invariant a payload byte is dropped or falls inside WH's record (R30, R69). -/
theorem WorkingInv.inside {s : State} (work : WorkingInv s) (inv : FramingInv s) (ge : 4 ≤ s.cnt.toNat)
    (wf : Memory.wf s.mem = true) :
    s.discard = true ∨ ∀ r, Memory.find s.mem s.wh.toNat = some r → s.cnt.toNat - 4 < r.pay.length := by
  refine (work ge).symm.imp And.right fun ⟨_, _, buffer⟩ r live => ?_
  have payLen := (Memory.wf_find wf live).2.2
  have total := inv.total_eq ge
  have lt := inv.1
  rw [live] at buffer
  rw [payLen, Option.some.inj buffer]
  omega

/-- Settles O57: a byte that is turned away changes nothing, and every kind of byte inside a frame has its frame. -/
theorem rxByteFrameInsideAFrame : Obligations.RxByteFrameInsideAFrame := by
  intro b s t inv ht inside
  obtain ⟨r, v, u, effect, rfl⟩ := exec_effect ht
  have outside := effect.sameOutside nofun
  have frames : SameQueue s u ∧ ByteFrame s u := by
    cases effect with
    | kept => exact ⟨(SameRing.refl s).2,
        .of_registers (fun _ => rfl) (fun _ => rfl) (fun _ => rfl) ⟨rfl, rfl, rfl, rfl⟩ rfl rfl⟩
    | received e =>
      obtain ⟨r', u', received, byte⟩ := receive_inside inv inside
      rw [e] at received
      cases received
      exact ⟨byte.sameQueue, byte.frame⟩
  obtain ⟨queue, frame⟩ := frames
  obtain ⟨wmod, wfun, len, others, header, byte3, records, bytes⟩ := frame.respond r v
  exact ⟨outside, by simpa [SameQueue] using queue, wmod, wfun, len, others, header, byte3, records, bytes,
    fun ge work wf => work.inside inv ge wf⟩

/-! ## RX_BYTE at the end of a frame -/

/-- Finalize, whatever it comes to: of the live records only WH's changes, WH is released outside discard mode, a handle
that becomes live is a non-null one that is answered with Ok, TAIL stays, and of the slots only the one at HEAD may
change (R71). -/
theorem finalize_frame (s : State) :
    (∀ g, Memory.live s.mem g = true → g ≠ s.wh.toNat → Memory.find (finalize s).2.2.mem g = Memory.find s.mem g) ∧
    (s.discard = false → s.wh ≠ 0x0000#16 → Memory.live (finalize s).2.2.mem s.wh.toNat = false) ∧
    (∀ g, Memory.live s.mem g = false → Memory.live (finalize s).2.2.mem g = true →
      (finalize s).1 = .ok ∧ (finalize s).2.1 ≠ 0x0000#16 ∧ g = (finalize s).2.1.toNat) ∧
    (finalize s).2.2.tail = s.tail ∧ (finalize s).2.2.slots.length = s.slots.length ∧
    ∀ j, j ≠ s.head → (finalize s).2.2.slots[j]? = s.slots[j]? := by
  rcases finalize_cases s with ⟨drop, h⟩ | ⟨keep, m, e, others, gone, liveOnly, -, h⟩
  · rw [h]
    refine ⟨fun _ _ _ => rfl, fun keep => ?_, fun g dead live => ?_, rfl, rfl, fun _ _ => rfl⟩
    · rw [drop] at keep
      cases keep
    · rw [decoderReset_mem, dead] at live
      cases live
  · have released : s.discard = false → s.wh ≠ 0x0000#16 → Memory.live m s.wh.toNat = false :=
      fun _ ne => Memory.live_eq_false.2 (gone ne)
    rcases h with h | ⟨f, ne, -, -, -, h⟩ | ⟨c, refused, h⟩ <;> rw [h] at liveOnly ⊢
    · exact ⟨others, released, fun g dead live => (nomatch (liveOnly g dead live).1), rfl, rfl, fun _ _ => rfl⟩
    · refine ⟨others, released, fun g dead live => ⟨rfl, ne, (liveOnly g dead live).2⟩, rfl, List.length_set, ?_⟩
      exact fun j hj => List.getElem?_set_ne (Ne.symm hj)
    · refine ⟨others, released, fun g dead live => ?_, rfl, rfl, fun _ _ => rfl⟩
      have ok := (liveOnly g dead live).1
      rcases putFailure_ne_ok refused with rfl | rfl <;> cases ok

/-- Settles O58: the byte comes to Finalize with no other record changed (`receive_endsFrame`), and Finalize has its
frame (`finalize_frame`). -/
theorem rxByteFrameAtTheBoundary : Obligations.RxByteFrameAtTheBoundary := by
  intro b s t inv serving ht ends
  obtain ⟨c, m, e, received, others, lives, -⟩ := receive_endsFrame inv ends
  generalize before :
    ({ s with cnt := c, len := if s.cnt = 3#17 then 0#16 else s.len, mem := m, env := e } : State) = s1 at received
  obtain ⟨records, released, liveOnly, tail, slotCount, slots⟩ := finalize_frame s1
  have idle := finalize_idle s1
  generalize ended : finalize s1 = p at received records released liveOnly tail slotCount slots idle
  obtain ⟨r, v, u⟩ := p
  rw [exec_rxByte serving received] at ht
  cases ht
  have effect : Effect s (.rxByte b) r v u := .received received
  subst before
  have rsp := congrArg PortState.rsp (effect.samePorts.respond r v).1
  refine ⟨effect.sameOutside nofun, by rwa [respond_tail], by simpa [DecoderIdle] using idle, fun g live => ?_,
    fun keep ne => by rw [respond_mem]; exact released keep ne, fun g dead live => ⟨_, rsp, ?_⟩,
    by rwa [respond_slots], fun j hj => by rw [respond_slots]; exact slots j hj⟩
  · rw [respond_mem, records g ((lives g).trans live.1) live.2]
    exact others g live.2
  · rw [respond_mem] at live
    obtain ⟨rfl, ne, data⟩ := liveOnly g ((lives g).trans dead) live
    rw [resultField_responseWord, dataField_responseWord]
    exact ⟨rfl, ne, data⟩

/-! ## The Consumer Loop -/

/-- A response with the code Ok to a GET hands the consumer the handle in its DATA (R98). -/
theorem consumerTurn_ok (table : DispatchTable) (st : Byte) (h : Handle) (s : State) :
    consumerTurn table (responseWord .ok st h) .polling s = (.holding h, some (consumerHandles table h s)) := by
  simp [consumerTurn, consumerSees]

/-- After any other response to its GET the consumer polls again: no other code has Ok's number (R57, R98). -/
theorem consumerTurn_not_ok (table : DispatchTable) {c : Code} (ne : c ≠ .ok) (st : Byte) (h : Handle) (s : State) :
    consumerTurn table (responseWord c st h) .polling s = (.polling, none) := by
  have num : c.num ≠ Code.ok.num := by
    cases c with
    | ok => exact absurd rfl ne
    | empty | partly | full | doubleFreeWarning | unknownCommand | allocationError | invalidArgument | queueFull
    | queueEmpty | queueInvalid => decide
  simp [consumerTurn, consumerSees, num]

/-- What the consumer does with a live Command, by the table's entry for its ids (R98). -/
theorem consumerHandles_live (table : DispatchTable) {h : Handle} {s : State} {r : Record}
    (live : Memory.find s.mem h.toNat = some r) :
    (∀ handler, table r.modId r.funId = some handler → consumerHandles table h s = .ran r.pay (handler r.pay)) ∧
    (table r.modId r.funId = none → consumerHandles table h s = .reported .unknownCommand) := by
  refine ⟨fun handler entry => ?_, fun entry => ?_⟩ <;>
    simp [consumerHandles, consumerReads, consumerPayload, live, entry]

/-- Settles O59: what a turn of the loop does after Ok, and after any other code. -/
theorem consumerReleasesEachHandleOnce : Obligations.ConsumerReleasesEachHandleOnce := by
  refine ⟨fun table st h w s s' => ⟨rfl, _, consumerTurn_ok table st h s, fun r live => consumerHandles_live table live,
    rfl, rfl⟩, fun table c st h s ne => consumerTurn_not_ok table ne st h s⟩

end Machine

end Sys2Proof
